-- ==== Sys2Proof/Word.lean ====
section
/-! DEFINITION. The word, byte and register-index types of the niothiel/lc3 core (R5 to R7). -/

namespace Sys2Proof

/-- Every register, the pc, every memory cell and every instruction is 16 bits wide (R5). -/
abbrev Word := BitVec 16

/-- A console byte, 0 to 255 (R13); also half of a memory cell in the image file (R36). -/
abbrev Byte := BitVec 8

/-- A general register's index, 0 to 7 (R7, R64). -/
abbrev RegIdx := Fin 8

end Sys2Proof
end

