-- ==== Sys2Proof/Config.lean ====
section
/-! DEFINITION. What the spec leaves to a named parameter, at the value this model takes, and the one free value.
Two more of its parameters stand beside their readers: OPCODE_MAP in Decode.lean, STR_EXEC_OFFSET_WIDTH in Operands.lean. -/

namespace Sys2Proof

/-- The 13 mnemonics of R1, the domain of OPCODE_MAP (R58). -/
inductive Mnemonic where
  | br | add | ld | st | and | ldr | str | not | ldi | sti | jmp | lea | trap
  deriving DecidableEq, Repr

/-- The order of bytes in the binary image file (R36); never observable by the core.
An argument of the image functions, since the spec leaves it OPEN (D5; log 5). -/
inductive ByteOrder where
  | little
  | big
  deriving DecidableEq, Repr

namespace Config

/-- GPR_RESET taken as zero (R18, D4). DESIGN CHOICE, log 4. -/
def gprReset : Word := 0x0000#16

/-- The pc's reset value and the assembler's first slot (R20, R40, R83). -/
def entryPoint : Word := 0x3000#16

/-- What a byte of memory that nothing lists reads as: "unemitted slots 0x0000" (R47, R126). DEDUCED, log 7. -/
def unlistedByte : Byte := 0x00#8

/-- How many bytes the 65536 cells of two bytes take, in memory's list and in the image file (R6, R37). -/
def imageBytes : Nat := 131072

/-- FREE VALUE: whether a token such as R8 or R-1 is a register token whose index the encoder refuses
(EncodingRangeError) or a command token (MalformedOperand in an operand position). The spec gives it no one
class (R77, I6; log 16). -/
opaque badRegisterTokenIsRegister : Bool

end Config

end Sys2Proof
end

