-- ==== Sys2Proof/Syntax.lean ====
section
/-! DEFINITION. The decoded instruction: one constructor for each row of spec/opcode_table.json. -/

namespace Sys2Proof

/-- An instruction term (R72). A register field is an index 0 to 7 (R64); a signed field is the bits of its
encoding, read as two's complement where its value is meant (R9, R60 to R62). The three refinements of the TRAP
row and the three rows of unassigned opcodes are constructors of their own (log 10). -/
inductive Instr where
  /-- BR: condition bits and offset9 (R55, R108). -/
  | br (n z p : Bool) (offset9 : BitVec 9)
  /-- ADD, register form (R50, R96). -/
  | addReg (dr sr1 sr2 : RegIdx)
  /-- ADD, immediate form (R51, R96). -/
  | addImm (dr sr1 : RegIdx) (imm5 : BitVec 5)
  /-- LD (R53, R101). -/
  | ld (dr : RegIdx) (offset9 : BitVec 9)
  /-- ST (R53, R102). -/
  | st (sr : RegIdx) (offset9 : BitVec 9)
  /-- AND, register form (R50, R97). -/
  | andReg (dr sr1 sr2 : RegIdx)
  /-- AND, immediate form (R51, R97). -/
  | andImm (dr sr1 : RegIdx) (imm5 : BitVec 5)
  /-- LDR (R54, R105). -/
  | ldr (dr baseR : RegIdx) (offset6 : BitVec 6)
  /-- STR; the term keeps the 6-bit field of the layout (R54, R62, R106). -/
  | str (sr baseR : RegIdx) (offset6 : BitVec 6)
  /-- NOT (R52, R98). -/
  | notReg (dr sr : RegIdx)
  /-- LDI (R53, R103). -/
  | ldi (dr : RegIdx) (offset9 : BitVec 9)
  /-- STI (R53, R104). -/
  | sti (sr : RegIdx) (offset9 : BitVec 9)
  /-- JMP (R56, R109). -/
  | jmp (baseR : RegIdx)
  /-- LEA (R53, R107). -/
  | lea (dr : RegIdx) (offset9 : BitVec 9)
  /-- TRAP with a vector that is none of the three services (R57, R111, R115). -/
  | trap (trapvect8 : BitVec 8)
  /-- TRAP 0x21, OUT (R112). -/
  | trapOut
  /-- TRAP 0x23, GETC (R113). -/
  | trapGetc
  /-- TRAP 0x25, HALT (R114). -/
  | trapHalt
  /-- Illegal(0x4) (R59, R72). -/
  | illegal4
  /-- Illegal(0x8) (R59, R72). -/
  | illegal8
  /-- Illegal(0xD) (R59, R72). -/
  | illegalD
  deriving DecidableEq, Repr

end Sys2Proof
end

