-- ==== Sys2Proof/WellFormed.lean ====
section
/-! DEFINITION. Which instruction terms are well formed. The types already bound every field, so one check is left. -/

namespace Sys2Proof

/-- The three legal trap vectors (R63, R69). -/
def legalTrapVectors : List (BitVec 8) := [0x21#8, 0x23#8, 0x25#8]

/-- The check: the plain TRAP term stands only for the vectors that have no constructor of their own, so that each
word has one term (log 10). -/
def Instr.trapIsPlain : Instr → Bool
  | .trap v => !legalTrapVectors.contains v
  | .br _ _ _ _ | .addReg _ _ _ | .addImm _ _ _ | .ld _ _ | .st _ _ | .andReg _ _ _ | .andImm _ _ _ | .ldr _ _ _
  | .str _ _ _ | .notReg _ _ | .ldi _ _ | .sti _ _ | .jmp _ | .lea _ _ | .trapOut | .trapGetc | .trapHalt
  | .illegal4 | .illegal8 | .illegalD => true

/-- A well-formed instruction term: one the decoder can answer. -/
def Instr.wf (i : Instr) : Bool := i.trapIsPlain

end Sys2Proof
end

