-- ==== Sys2Proof/Decode.lean ====
section
/-! DEFINITION. The decoder (R72), then the encoder with its range checks (R66 to R71). -/

namespace Sys2Proof

/-! ## Opcodes (R58, R59) -/

/-- OPCODE_MAP at its default, the standard LC-3 assignment (R58, D1). PRESUMED but for TRAP = 0xF, log 1. -/
def Config.opcodeMap : Mnemonic → BitVec 4
  | .br   => 0x0#4
  | .add  => 0x1#4
  | .ld   => 0x2#4
  | .st   => 0x3#4
  | .and  => 0x5#4
  | .ldr  => 0x6#4
  | .str  => 0x7#4
  | .not  => 0x9#4
  | .ldi  => 0xA#4
  | .sti  => 0xB#4
  | .jmp  => 0xC#4
  | .lea  => 0xE#4
  | .trap => 0xF#4

/-- The inverse of OPCODE_MAP (R72); none: a value assigned to no mnemonic (R59). -/
def Config.mnemonicOf (op : BitVec 4) : Option Mnemonic :=
  [Mnemonic.br, .add, .ld, .st, .and, .ldr, .str, .not, .ldi, .sti, .jmp, .lea, .trap].find?
    (fun m => Config.opcodeMap m == op)

/-! ## Fields of an instruction word (R8, R49) -/

/-- A 3-bit register field whose lowest bit is bit `lo` (R64). -/
def regField (w : Word) (lo : Nat) : RegIdx := (w.extractLsb' lo 3).toFin

/-- The opcode, bits 15:12 (R48). -/
def opcodeField (w : Word) : BitVec 4 := w.extractLsb' 12 4

/-- imm5, bits 4:0 (R60). -/
def imm5Field (w : Word) : BitVec 5 := w.extractLsb' 0 5

/-- offset9, bits 8:0 (R61). -/
def offset9Field (w : Word) : BitVec 9 := w.extractLsb' 0 9

/-- offset6, bits 5:0 (R62). -/
def offset6Field (w : Word) : BitVec 6 := w.extractLsb' 0 6

/-- trapvect8, bits 7:0 (R63). -/
def trapvect8Field (w : Word) : BitVec 8 := w.extractLsb' 0 8

/-! ## The decoder -/

/-- The TRAP row and its three refinements, by the vector (R57, R111). -/
def decodeTrap (v : BitVec 8) : Instr :=
  if v = 0x21#8 then .trapOut
  else if v = 0x23#8 then .trapGetc
  else if v = 0x25#8 then .trapHalt
  else .trap v

/-- Illegal(op) for an opcode that OPCODE_MAP assigns to no mnemonic: 0x4, 0x8 or 0xD (R59, log 10). -/
def decodeIllegal (op : BitVec 4) : Instr :=
  if op = 0x4#4 then .illegal4
  else if op = 0x8#4 then .illegal8
  else .illegalD

/-- The term of a word whose opcode is a mnemonic's: the fields its handler reads (R72). Bits that no field holds are
not looked at (R65, log 14). -/
def decodeAs (m : Mnemonic) (w : Word) : Instr :=
  match m with
  | .add =>
    if w.getLsbD 5 then .addImm (regField w 9) (regField w 6) (imm5Field w)
    else .addReg (regField w 9) (regField w 6) (regField w 0)
  | .and =>
    if w.getLsbD 5 then .andImm (regField w 9) (regField w 6) (imm5Field w)
    else .andReg (regField w 9) (regField w 6) (regField w 0)
  | .not => .notReg (regField w 9) (regField w 6)
  | .ld => .ld (regField w 9) (offset9Field w)
  | .st => .st (regField w 9) (offset9Field w)
  | .ldi => .ldi (regField w 9) (offset9Field w)
  | .sti => .sti (regField w 9) (offset9Field w)
  | .lea => .lea (regField w 9) (offset9Field w)
  | .ldr => .ldr (regField w 9) (regField w 6) (offset6Field w)
  | .str => .str (regField w 9) (regField w 6) (offset6Field w)
  | .br => .br (w.getLsbD 11) (w.getLsbD 10) (w.getLsbD 9) (offset9Field w)
  | .jmp => .jmp (regField w 6)
  | .trap => decodeTrap (trapvect8Field w)

/-- The decoder, total on words; an unassigned opcode gives its illegal term (R72). -/
def decode (w : Word) : Instr :=
  match Config.mnemonicOf (opcodeField w) with
  | some m => decodeAs m w
  | none => decodeIllegal (opcodeField w)

/-- Why no instruction can be read from a list of words: there is no word (every instruction is one word, R48). -/
inductive DecodeRefusal where
  | noWord
  deriving DecidableEq, Repr

/-- The decoder on a list of words: the first instruction and the words after it (R48, R75). -/
def decodeWords : List Word → Except DecodeRefusal (Instr × List Word)
  | [] => .error .noWord
  | w :: rest => .ok (decode w, rest)

/-- The instruction read from a word numbered as spec/opcode_table.json numbers it; every row is one 16-bit word,
which memory stores as one cell (R48, R35). Bits above `nbits` are 0. -/
def decodeTableWord (nbits w : Nat) : Option Instr :=
  match decodeWords [BitVec.ofNat 16 (w % 2 ^ nbits)] with
  | .ok (i, _) => some i
  | .error .noWord => none

/-! ## The encoder -/

/-- An instruction form with its operand values as integers: the encoder's input (R14, R66, R71). -/
inductive Form where
  | addr (d s1 s2 : Int)
  | addi (d s1 imm : Int)
  | andr (d s1 s2 : Int)
  | andi (d s1 imm : Int)
  | not (d s : Int)
  | ld (d off : Int)
  | st (s off : Int)
  | ldi (d off : Int)
  | sti (s off : Int)
  | lea (d off : Int)
  | ldr (d b off : Int)
  | str (s b off : Int)
  | br (n z p : Bool) (off : Int)
  | jmp (b : Int)
  | trap (v : Int)
  deriving DecidableEq, Repr

/-- EncodingRangeError with its info, the value and the field's width (R116); of which operand, see log 19. -/
structure RangeError where
  value : Int
  width : Nat
  deriving DecidableEq, Repr

/-- Register validation (R67). -/
def checkReg (r : Int) : Except RangeError Int :=
  if 0 ≤ r ∧ r ≤ 7 then .ok r else .error ⟨r, 3⟩

/-- Signed-field validation for an N-bit field (R68). -/
def checkSigned (v : Int) (N : Nat) : Except RangeError Int :=
  if -(2 ^ (N - 1)) ≤ v ∧ v ≤ 2 ^ (N - 1) - 1 then .ok v else .error ⟨v, N⟩

/-- Trap-vector validation (R69). -/
def checkVect (v : Int) : Except RangeError Int :=
  if v = 0x21 ∨ v = 0x23 ∨ v = 0x25 then .ok v else .error ⟨v, 8⟩

/-- The N-bit two's-complement pattern of a value, at the low end of a word (R68). -/
def pack (v : Int) (N : Nat) : Word := (BitVec.ofInt N v).setWidth 16

/-- OP(m) << 12 (R71). -/
def opBits (m : Mnemonic) : Word := (Config.opcodeMap m).setWidth 16 <<< 12

/-- A field value moved to bit `lo` of the word; the checks have bounded it (R70). -/
def place (v : Int) (lo : Nat) : Word := BitVec.ofInt 16 v <<< lo

/-- A condition bit at bit `lo` (R55). -/
def placeBit (b : Bool) (lo : Nat) : Word := (BitVec.ofBool b).setWidth 16 <<< lo

/-- Two register fields, at bits 11:9 and 8:6, below an opcode (R50 to R54). -/
def encodeTwoRegs (m : Mnemonic) (a b : Int) (low : Word) : Word := opBits m ||| place a 9 ||| place b 6 ||| low

/-- The encoder functions: every operand is checked before the word is built (R70, R71). Filler bits are 0, and
111111 for NOT (R52, R71). DESIGN CHOICE, log 19: with several operands out of range, the one error records the
leftmost of them; R70 and R118 fix its class alone. -/
def encodeForm : Form → Except RangeError Word
  | .addr d s1 s2 => do
    let d ← checkReg d; let s1 ← checkReg s1; let s2 ← checkReg s2
    return encodeTwoRegs .add d s1 (place s2 0)
  | .addi d s1 imm => do
    let d ← checkReg d; let s1 ← checkReg s1; let imm ← checkSigned imm 5
    return encodeTwoRegs .add d s1 (0x0020#16 ||| pack imm 5)
  | .andr d s1 s2 => do
    let d ← checkReg d; let s1 ← checkReg s1; let s2 ← checkReg s2
    return encodeTwoRegs .and d s1 (place s2 0)
  | .andi d s1 imm => do
    let d ← checkReg d; let s1 ← checkReg s1; let imm ← checkSigned imm 5
    return encodeTwoRegs .and d s1 (0x0020#16 ||| pack imm 5)
  | .not d s => do
    let d ← checkReg d; let s ← checkReg s
    return encodeTwoRegs .not d s 0x003F#16
  | .ld d off => do
    let d ← checkReg d; let off ← checkSigned off 9
    return opBits .ld ||| place d 9 ||| pack off 9
  | .st s off => do
    let s ← checkReg s; let off ← checkSigned off 9
    return opBits .st ||| place s 9 ||| pack off 9
  | .ldi d off => do
    let d ← checkReg d; let off ← checkSigned off 9
    return opBits .ldi ||| place d 9 ||| pack off 9
  | .sti s off => do
    let s ← checkReg s; let off ← checkSigned off 9
    return opBits .sti ||| place s 9 ||| pack off 9
  | .lea d off => do
    let d ← checkReg d; let off ← checkSigned off 9
    return opBits .lea ||| place d 9 ||| pack off 9
  | .ldr d b off => do
    let d ← checkReg d; let b ← checkReg b; let off ← checkSigned off 6
    return encodeTwoRegs .ldr d b (pack off 6)
  | .str s b off => do
    let s ← checkReg s; let b ← checkReg b; let off ← checkSigned off 6
    return encodeTwoRegs .str s b (pack off 6)
  | .br n z p off => do
    let off ← checkSigned off 9
    return opBits .br ||| placeBit n 11 ||| placeBit z 10 ||| placeBit p 9 ||| pack off 9
  | .jmp b => do
    let b ← checkReg b
    return opBits .jmp ||| place b 6
  | .trap v => do
    let v ← checkVect v
    return 0xF000#16 ||| place v 0

/-- The operands of a term as integers, the form that R71's function for it takes; the opcode for an illegal term,
which no encoder function produces (R59, R72). -/
def Instr.form : Instr → Except (BitVec 4) Form
  | .br n z p off => .ok (.br n z p off.toInt)
  | .addReg d a b => .ok (.addr d.val a.val b.val)
  | .addImm d a imm => .ok (.addi d.val a.val imm.toInt)
  | .ld d off => .ok (.ld d.val off.toInt)
  | .st s off => .ok (.st s.val off.toInt)
  | .andReg d a b => .ok (.andr d.val a.val b.val)
  | .andImm d a imm => .ok (.andi d.val a.val imm.toInt)
  | .ldr d b off => .ok (.ldr d.val b.val off.toInt)
  | .str s b off => .ok (.str s.val b.val off.toInt)
  | .notReg d a => .ok (.not d.val a.val)
  | .ldi d off => .ok (.ldi d.val off.toInt)
  | .sti s off => .ok (.sti s.val off.toInt)
  | .jmp b => .ok (.jmp b.val)
  | .lea d off => .ok (.lea d.val off.toInt)
  | .trap v => .ok (.trap v.toNat)
  | .trapOut => .ok (.trap 0x21)
  | .trapGetc => .ok (.trap 0x23)
  | .trapHalt => .ok (.trap 0x25)
  | .illegal4 => .error 0x4#4
  | .illegal8 => .error 0x8#4
  | .illegalD => .error 0xD#4

/-- Why a term has no word of its own. -/
inductive EncodeRefusal where
  /-- An operand out of range: for a term, only a trap vector that is not legal (R69). -/
  | encodingRange (e : RangeError)
  /-- An unassigned opcode: no encoder function produces it (R59). -/
  | noEncoder (op : BitVec 4)
  deriving DecidableEq, Repr

/-- The word of a term: R71's function applied to its operands. -/
def encode (i : Instr) : Except EncodeRefusal Word :=
  match i.form with
  | .error op => .error (.noEncoder op)
  | .ok f =>
    match encodeForm f with
    | .ok w => .ok w
    | .error e => .error (.encodingRange e)

end Sys2Proof
end

