-- ==== Sys2Proof/Machine/State.lean ====
section
/-! DEFINITION. The machine's state (R30), the classes of fatal errors (R116) and why a step has no successor. -/

namespace Sys2Proof.Machine

/-- The condition code's three values (R21); the byte that stores them is not given (D25, log 12). -/
inductive CC where
  | negative
  | zero
  | positive
  deriving DecidableEq, Repr

/-- Memory: the bytes of the cells that are not at `Config.unlistedByte`, strictly rising by byte address. The cell at
word address `a` is the bytes 2a (bits 7:0) and 2a + 1 (bits 15:8), as an image file with the order `little` lays
it out (R36). No access moves less than a cell (R35), so nothing observes this layout (log 6). -/
abbrev Memory := List Host.Cell

/-- The whole state (R30), and the console input the host has delivered and nothing has taken yet (R29, log 9). -/
structure State where
  /-- R0 to R7 (R15). -/
  x : Vector Word 8
  /-- The program counter, a word address (R19). -/
  pc : Word
  /-- The condition code (R21). -/
  cc : CC
  /-- The halted flag (R25). -/
  halted : Bool
  /-- The memory image (R32). -/
  mem : Memory
  /-- Console output so far, oldest first (R29). -/
  out : List Byte
  /-- Values delivered to console input, oldest first; those above 255 are end-of-input sentinels (R13, R113). -/
  input : List Nat
  deriving DecidableEq, Repr

/-- The state right after reset, before memory is filled (R126). -/
def State.reset : State where
  x := Vector.replicate 8 Config.gprReset
  pc := Config.entryPoint
  cc := .zero
  halted := false
  mem := []
  out := []
  input := []

/-- The fatal error classes (R116). -/
inductive ErrorClass where
  | encodingRangeError
  | unknownOpcode
  | malformedOperand
  | malformedImage
  | unimplementedTrap
  | haltedMachine
  | pcOverflow
  | ioError
  | uninitializedRegister
  deriving DecidableEq, Repr

/-- The fatal errors a step can raise, each with the info R116 records and `out`, the console output written before it
(R92, R117). All are the spec's own aborts of the run: safe, the machine has no next state either (D10, log 8). -/
inductive Fault where
  /-- Raised by an unassigned opcode, LDI and STI, before any effect (R91, R103, R104). Safe; for LDI and STI see log 2. -/
  | unknownOpcode (op : BitVec 4) (pc : Word) (out : List Byte)
  /-- Raised by a TRAP whose vector is not 0x21, 0x23 or 0x25, before any effect (R115). Safe. -/
  | unimplementedTrap (vector : BitVec 8) (out : List Byte)
  /-- Raised by a step of a halted machine, before the fetch (R86). Safe. -/
  | haltedMachine (out : List Byte)
  /-- Raised by the advance of the pc from 0xFFFF (R90). Safe as the spec stands; where it falls in OUT and GETC, see log 13. -/
  | pcOverflow (pc : Word) (out : List Byte)
  deriving DecidableEq, Repr

/-- Why a step has no successor though nothing went wrong. -/
inductive Refusal where
  /-- The instruction's arm has no meaning yet. Raised by Dispatch alone. Safe. -/
  | notModelled (mnemonic : String)
  /-- The hold of GETC: no value up to 255 has been delivered (R92c, R113, R133). Raised by TRAP 0x23. Safe: the step
  resumes when the host supplies a byte (log 9). -/
  | awaitingInput
  deriving DecidableEq, Repr

/-- What one step answers (R92). -/
abbrev Result := Host.Outcome State Fault Refusal

end Sys2Proof.Machine
end

