-- ==== Sys2Proof/Machine/Ops.lean ====
section
/-! DEFINITION. The operations every instruction shares: memory, registers, the console, raising an error, the fetch
and the pc advance. -/

namespace Sys2Proof.Machine

/-! ## Memory, one byte of its list -/

/-- One byte of memory; an address that is not listed reads as `Config.unlistedByte`. -/
def Memory.readByte : Memory → Nat → Byte
  | [], _ => Config.unlistedByte
  | (k, v) :: m, a => if k = a then v else Memory.readByte m a

/-- Memory without an entry for `a`. -/
def Memory.eraseByte : Memory → Nat → Memory
  | [], _ => []
  | (k, v) :: m, a => if k = a then Memory.eraseByte m a else (k, v) :: Memory.eraseByte m a

/-- An entry put in its place by address, in memory that lists none for it. -/
def Memory.insertByte : Memory → Nat → Byte → Memory
  | [], a, v => [(a, v)]
  | (k, u) :: m, a, v => if k < a then (k, u) :: Memory.insertByte m a v else (a, v) :: (k, u) :: m

/-- One byte replaced. The value an unlisted byte reads as takes its entry away, so equal memories are equal lists. -/
def Memory.writeByte (m : Memory) (a : Nat) (v : Byte) : Memory :=
  if v = Config.unlistedByte then m.eraseByte a else (m.eraseByte a).insertByte a v

/-- The canonical form from byte address `lo` on: strictly rising, inside the address space, no entry at the value an
unlisted byte reads as. -/
def Memory.wfFrom : Nat → Memory → Bool
  | _, [] => true
  | lo, (k, v) :: m =>
    decide (lo ≤ k) && decide (k < Config.imageBytes) && (v != Config.unlistedByte) && Memory.wfFrom (k + 1) m

/-- The canonical form of memory (log 6). -/
def Memory.wf (m : Memory) : Bool := Memory.wfFrom 0 m

/-! ## Memory, the 16-bit cell: the only access (R35) -/

/-- The word whose bits 15:8 and 7:0 are given. -/
def wordOfHalves (hi lo : Byte) : Word := hi.setWidth 16 <<< 8 ||| lo.setWidth 16

/-- Bits 15:8 of a word. -/
def highHalf (w : Word) : Byte := w.extractLsb' 8 8

/-- Bits 7:0 of a word. -/
def lowHalf (w : Word) : Byte := w.extractLsb' 0 8

/-- `MemRead(a, 1)` (R35). -/
def Memory.read (m : Memory) (a : Word) : Word :=
  wordOfHalves (m.readByte (2 * a.toNat + 1)) (m.readByte (2 * a.toNat))

/-- `MemWrite(a, 1, v)` (R35). -/
def Memory.write (m : Memory) (a v : Word) : Memory :=
  (m.writeByte (2 * a.toNat) (lowHalf v)).writeByte (2 * a.toNat + 1) (highHalf v)

/-! ## Registers -/

/-- `x[i]` (R11). -/
def State.reg (s : State) (i : RegIdx) : Word := s.x[i]

/-- `x[i] <- v`; no register is hardwired (R11, R15). -/
def State.setReg (s : State) (i : RegIdx) (v : Word) : State := { s with x := s.x.set i v }

/-- `pc <- target`; every 16-bit value is a valid target (R11, R38). -/
def State.setPc (s : State) (target : Word) : State := { s with pc := target }

/-- `MemWrite(a, 1, v)` on the state's memory (R11). -/
def State.store (s : State) (a v : Word) : State := { s with mem := s.mem.write a v }

/-! ## The console (R13) -/

/-- `ConsoleOut(b)` (R13). -/
def State.consoleOut (s : State) (b : Byte) : State := { s with out := s.out ++ [b] }

/-- The first value up to 255 of an input stream, and the stream after it; values above 255 are discarded (R113). -/
def takeByte : List Nat → Option (Byte × List Nat)
  | [] => none
  | c :: rest => if c ≤ 255 then some (BitVec.ofNat 8 c, rest) else takeByte rest

/-! ## Fatal errors: the one way this core "takes an exception" (R12, R117, R120) -/

/-- `raise E(info)`: the run is aborted with the class, its info and the output so far; there is no next state, no
handler, nothing is saved and nothing returns (R12, R117, R120, R121). -/
def raise (E : List Byte → Fault) (s : State) : Result := .fault (E s.out)

/-- The class of a step's fatal error (R116). -/
def Fault.errorClass : Fault → ErrorClass
  | .unknownOpcode _ _ _ => .unknownOpcode
  | .unimplementedTrap _ _ => .unimplementedTrap
  | .haltedMachine _ => .haltedMachine
  | .pcOverflow _ _ => .pcOverflow

/-- The console output that an aborted run keeps (R117). -/
def Fault.out : Fault → List Byte
  | .unknownOpcode _ _ out => out
  | .unimplementedTrap _ out => out
  | .haltedMachine out => out
  | .pcOverflow _ out => out

/-- The spec's own numbers for the classes (R116). -/
def ErrorClass.code : ErrorClass → Nat
  | .encodingRangeError => 1
  | .unknownOpcode => 2
  | .malformedOperand => 3
  | .malformedImage => 4
  | .unimplementedTrap => 5
  | .haltedMachine => 6
  | .pcOverflow => 7
  | .ioError => 8
  | .uninitializedRegister => 9

/-! ## Fetch and the pc advance -/

/-- `ir <- MemRead(pc, 1)`; it cannot fail (R87). -/
def fetch (s : State) : Word := s.mem.read s.pc

/-- `IncPC()`, and then the rest of the handler: from 0xFFFF it is fatal, before anything the rest does (R90, D6). -/
def incPC (s : State) (rest : State → Result) : Result :=
  if s.pc = 0xFFFF#16 then raise (.pcOverflow s.pc) s else rest (s.setPc (s.pc + 1#16))

end Sys2Proof.Machine
end

