-- ==== Sys2Proof/Machine/Flags.lean ====
section
/-! DEFINITION. The condition code's one reader (R22). No instruction writes it, so no flag is ever computed (R23). -/

namespace Sys2Proof.Machine

/-- Whether BR is taken: a set condition bit names the condition code's value (R108). -/
def branchTaken (n z p : Bool) (cc : CC) : Bool :=
  (n && (cc == .negative)) || (z && (cc == .zero)) || (p && (cc == .positive))

end Sys2Proof.Machine
end

