-- ==== Sys2Proof/Machine/Operands.lean ====
section
/-! DEFINITION. Operand forms: sign extension and effective addresses. All sums wrap modulo 2^16 (R34). -/

namespace Sys2Proof.Machine

/-- `sext_N(f)` as an integer, in the words of R9. -/
def sextInt (N field : Nat) : Int := if field.testBit (N - 1) then (field : Int) - 2 ^ N else field

/-- `sext_N(f)` as a 16-bit operand: reduced modulo 2^16 (R9). -/
def sext16 {N : Nat} (f : BitVec N) : Word := f.signExtend 16

/-- `zext_16(v)` (R10). -/
def zext16 {N : Nat} (v : BitVec N) : Word := v.setWidth 16

/-- PC-relative: the pc, already advanced, plus offset9 (R61, R101). -/
def pcRelative (s : State) (offset9 : BitVec 9) : Word := s.pc + sext16 offset9

/-- Base plus offset: the base register plus offset6 (R62, R105). -/
def baseOffset (s : State) (baseR : RegIdx) (offset6 : BitVec 6) : Word := s.reg baseR + sext16 offset6

/-- STR_EXEC_OFFSET_WIDTH, default 5 (R106, D3, C2). DESIGN CHOICE, log 3. -/
abbrev Config.strExecOffsetWidth : Nat := 5

/-- STR's offset when its executor sign-extends `K` bits of the field: `sext_K(ir[K-1:0])` (R106). -/
def strOffset (K : Nat) (offset6 : BitVec 6) : Word := sext16 (offset6.setWidth K)

/-- STR's address: base plus its executor's reading of the offset, K = STR_EXEC_OFFSET_WIDTH (R106, C2, log 3). -/
def strAddress (s : State) (baseR : RegIdx) (offset6 : BitVec 6) : Word :=
  s.reg baseR + strOffset Config.strExecOffsetWidth offset6

end Sys2Proof.Machine
end

