-- ==== Sys2Proof/Machine/Control.lean ====
section
/-! DEFINITION. BR and JMP (R108, R109). There is no call, return or link (R110). -/

namespace Sys2Proof.Machine

/-- BR: advances first, then adds the offset if taken (R89, R108, C1). -/
def execBr (n z p : Bool) (offset9 : BitVec 9) (s : State) : Result :=
  incPC s fun s => .next (if branchTaken n z p s.cc then s.setPc (pcRelative s offset9) else s)

/-- JMP: the pc from a register, with no advance and so no PCOverflow (R109). -/
def execJmp (baseR : RegIdx) (s : State) : Result := .next (s.setPc (s.reg baseR))

end Sys2Proof.Machine
end

