-- ==== Sys2Proof/Machine/DataMovement.lean ====
section
/-! DEFINITION. LD, ST, LDI, STI, LDR, STR and LEA (R101 to R107). No access can fault (R41); none writes cc (R23). -/

namespace Sys2Proof.Machine

/-- LD (R101). -/
def execLd (dr : RegIdx) (offset9 : BitVec 9) (s : State) : Result :=
  incPC s fun s => .next (s.setReg dr (s.mem.read (pcRelative s offset9)))

/-- ST (R102). -/
def execSt (sr : RegIdx) (offset9 : BitVec 9) (s : State) : Result :=
  incPC s fun s => .next (s.store (pcRelative s offset9) (s.reg sr))

/-- LDI: encodable, but execution raises UnknownOpcode before the advance (R103, D2, log 2). -/
def execLdi (_dr : RegIdx) (_offset9 : BitVec 9) (s : State) : Result :=
  raise (.unknownOpcode (Config.opcodeMap .ldi) s.pc) s

/-- STI: encodable, but execution raises UnknownOpcode before the advance (R104, D2, log 2). -/
def execSti (_sr : RegIdx) (_offset9 : BitVec 9) (s : State) : Result :=
  raise (.unknownOpcode (Config.opcodeMap .sti) s.pc) s

/-- LDR: the base is read before DR is written (R105). -/
def execLdr (dr baseR : RegIdx) (offset6 : BitVec 6) (s : State) : Result :=
  incPC s fun s => .next (s.setReg dr (s.mem.read (baseOffset s baseR offset6)))

/-- STR (R106). -/
def execStr (sr baseR : RegIdx) (offset6 : BitVec 6) (s : State) : Result :=
  incPC s fun s => .next (s.store (strAddress s baseR offset6) (s.reg sr))

/-- LEA: the address only, no memory access (R107). -/
def execLea (dr : RegIdx) (offset9 : BitVec 9) (s : State) : Result :=
  incPC s fun s => .next (s.setReg dr (pcRelative s offset9))

end Sys2Proof.Machine
end

