-- ==== Sys2Proof/Machine/Illegal.lean ====
section
/-! DEFINITION. The words of an unassigned opcode: fatal, and nothing changes first (R59, R91). -/

namespace Sys2Proof.Machine

/-- Opcode 0x4 (R91). -/
def execIllegal4 (s : State) : Result := raise (.unknownOpcode 0x4#4 s.pc) s

/-- Opcode 0x8 (R91, R121). -/
def execIllegal8 (s : State) : Result := raise (.unknownOpcode 0x8#4 s.pc) s

/-- Opcode 0xD (R91). -/
def execIllegalD (s : State) : Result := raise (.unknownOpcode 0xD#4 s.pc) s

end Sys2Proof.Machine
end

