-- ==== Sys2Proof/Machine/Operate.lean ====
section
/-! DEFINITION. ADD, AND and NOT (R96 to R99). Each reads every source before it writes (R95); none writes cc (R23). -/

namespace Sys2Proof.Machine

/-- ADD, register form: addition modulo 2^16, the carry discarded (R96). -/
def execAddReg (dr sr1 sr2 : RegIdx) (s : State) : Result :=
  incPC s fun s => .next (s.setReg dr (s.reg sr1 + s.reg sr2))

/-- ADD, immediate form (R96). -/
def execAddImm (dr sr1 : RegIdx) (imm5 : BitVec 5) (s : State) : Result :=
  incPC s fun s => .next (s.setReg dr (s.reg sr1 + sext16 imm5))

/-- AND, register form (R97). -/
def execAndReg (dr sr1 sr2 : RegIdx) (s : State) : Result :=
  incPC s fun s => .next (s.setReg dr (s.reg sr1 &&& s.reg sr2))

/-- AND, immediate form (R97). -/
def execAndImm (dr sr1 : RegIdx) (imm5 : BitVec 5) (s : State) : Result :=
  incPC s fun s => .next (s.setReg dr (s.reg sr1 &&& sext16 imm5))

/-- NOT (R98). -/
def execNot (dr sr : RegIdx) (s : State) : Result :=
  incPC s fun s => .next (s.setReg dr (~~~(s.reg sr)))

end Sys2Proof.Machine
end

