-- ==== Sys2Proof/Machine/Trap.lean ====
section
/-! DEFINITION. TRAP and its three services, carried out inside the core (R111 to R115): nothing is saved, no link
register is written, no table is read, no mode changes (R111, R120). -/

namespace Sys2Proof.Machine

/-- OUT: R0's low byte to the console, then the advance, which at 0xFFFF faults after the byte is out (R112, D7, log 13). -/
def serviceOut (s : State) : Result :=
  incPC (s.consoleOut (lowHalf (s.reg 0))) .next

/-- GETC: the first delivered value up to 255, zero-extended, to R0, then the advance (R113, D13). With none delivered
the step holds: it has no successor (R92c, R133, D12, log 9). No echo. -/
def serviceGetc (s : State) : Result :=
  match takeByte s.input with
  | none => .refused .awaitingInput
  | some (c, rest) => incPC ({ s with input := rest }.setReg 0 (zext16 c)) .next

/-- HALT: sets the halted flag; the pc stays (R114). -/
def serviceHalt (s : State) : Result := .next { s with halted := true }

/-- TRAP: dispatch on the vector, with no advance on entry (R111); any other vector is fatal before any effect (R115). -/
def execTrap (trapvect8 : BitVec 8) (s : State) : Result :=
  if trapvect8 = 0x21#8 then serviceOut s
  else if trapvect8 = 0x23#8 then serviceGetc s
  else if trapvect8 = 0x25#8 then serviceHalt s
  else raise (.unimplementedTrap trapvect8) s

/-- TRAP 0x21 (R112). -/
def execTrapOut (s : State) : Result := serviceOut s

/-- TRAP 0x23 (R113). -/
def execTrapGetc (s : State) : Result := serviceGetc s

/-- TRAP 0x25 (R114). -/
def execTrapHalt (s : State) : Result := serviceHalt s

end Sys2Proof.Machine
end

