-- ==== Sys2Proof/Machine/Step.lean ====
section
/-! DEFINITION. One step (R86 to R88), and the load of one instruction word where the next step fetches. -/

namespace Sys2Proof.Machine

/-- The halted check, the fetch, the decoding and the dispatch (R86 to R88). -/
def step (s : State) : Host.Outcome State Fault Refusal :=
  if s.halted then raise .haltedMachine s else exec (decode (fetch s)) s

/-- `s` with an instruction word in the cell at `pc`, the cell the next step fetches (R87). It stands for the host's
load of a program (R31, R126, log 11). A halted machine fetches nothing (R86), and nothing clears the flag (R25). -/
def State.withFetchWord (s : State) (nbits w : Nat) : State :=
  s.store s.pc (BitVec.ofNat 16 (w % 2 ^ nbits))

end Sys2Proof.Machine
end

