-- ==== Sys2Proof/Machine/Image.lean ====
section
/-! DEFINITION. The binary image file (R36, R37, R129) and a run's start from one (R127). -/

namespace Sys2Proof.Machine

/-- The two file bytes of a word (R36). -/
def bytesOfWord (order : ByteOrder) (w : Word) : List Byte :=
  match order with
  | .little => [lowHalf w, highHalf w]
  | .big => [highHalf w, lowHalf w]

/-- The words of a file's bytes, two bytes a word (R36). -/
def wordsOfBytes (order : ByteOrder) : List Byte → List Word
  | b0 :: b1 :: rest =>
    (match order with
      | .little => wordOfHalves b1 b0
      | .big => wordOfHalves b0 b1) :: wordsOfBytes order rest
  | _ => []

/-- A byte's entry in memory's list: none at the value an unlisted byte reads as. -/
def cellOf (a : Nat) (v : Byte) : Memory := if v = Config.unlistedByte then [] else [(a, v)]

/-- Memory that holds the given words from word address `k` on. -/
def memoryOfWords : Nat → List Word → Memory
  | _, [] => []
  | k, w :: ws => cellOf (2 * k) (lowHalf w) ++ (cellOf (2 * k + 1) (highHalf w) ++ memoryOfWords (k + 1) ws)

/-- Why a run's memory cannot be filled from an image file, with R116's info. -/
inductive ImageError where
  /-- The file cannot be opened (R127). -/
  | ioError (name : List Char)
  /-- The file is not exactly 65536 words (R37). `size` is in bytes: DESIGN CHOICE, log 20. -/
  | malformedImage (size : Nat)
  deriving DecidableEq, Repr

/-- The class of an image error (R116). -/
def ImageError.errorClass : ImageError → ErrorClass
  | .ioError _ => .ioError
  | .malformedImage _ => .malformedImage

/-- The image reader: only 131072 bytes are accepted (R36, R37). DESIGN CHOICE, log 20: the size recorded for another file
(R116) counts bytes; the spec does not say whether bytes or words. -/
def readImage (order : ByteOrder) (bytes : List Byte) : Except ImageError Memory :=
  if bytes.length = Config.imageBytes then .ok (memoryOfWords 0 (wordsOfBytes order bytes))
  else .error (.malformedImage bytes.length)

/-- The image writer: word k of memory at file bytes 2k and 2k + 1 (R36). -/
def writeImage (order : ByteOrder) (m : Memory) : List Byte :=
  (List.range 65536).flatMap fun k => bytesOfWord order (m.read (BitVec.ofNat 16 k))

/-- Reset, with memory filled (R126). -/
def State.resetWith (m : Memory) : State := { State.reset with mem := m }

/-- The start of `exec <binary-file>`; `file` is the file's bytes, none where it cannot be opened (R127). -/
def execStart (order : ByteOrder) (name : List Char) (file : Option (List Byte)) : Except ImageError State :=
  match file with
  | none => .error (.ioError name)
  | some bytes =>
    match readImage order bytes with
    | .error e => .error e
    | .ok m => .ok (State.resetWith m)

end Sys2Proof.Machine
end

