-- ==== Sys2Proof/Machine/Assembler.lean ====
section
/-! DEFINITION. The assembler's mnemonic side: lines, tokens, mnemonics, operand shapes, the cursor (R76 to R85), and a
run's start from source text (R128). Text is a list of characters. -/

namespace Sys2Proof.Machine

/-! ## Lines and tokens (R76, R77) -/

/-- A token; End-of-line is the end of the line's list (R77). A register token holds its written index: 0 to 7, or
one the encoder refuses (log 16). -/
inductive Token where
  | register (i : Int)
  | immediate (v : Int)
  | command (text : List Char)
  deriving DecidableEq, Repr

/-- Tokens are separated by spaces, tabs and commas (R77). -/
def isSeparator (c : Char) : Bool := c == ' ' || c == '\t' || c == ','

/-- The pieces between separators; `cur` is the piece read so far, backwards. -/
def splitPieces (isSep : Char → Bool) (cur : List Char) : List Char → List (List Char)
  | [] => if cur.isEmpty then [] else [cur.reverse]
  | c :: cs =>
    if isSep c then
      if cur.isEmpty then splitPieces isSep [] cs else cur.reverse :: splitPieces isSep [] cs
    else splitPieces isSep (c :: cur) cs

/-- A decimal number: one digit or more (R77). -/
def parseDecimal (cs : List Char) : Option Nat :=
  if cs.isEmpty || cs.any (fun c => !c.isDigit) then none
  else some (cs.foldl (fun n c => 10 * n + (c.toNat - '0'.toNat)) 0)

/-- A decimal, optionally signed integer (R77). -/
def parseSigned : List Char → Option Int
  | '+' :: cs => (parseDecimal cs).map Int.ofNat
  | '-' :: cs => (parseDecimal cs).map fun n => -(Int.ofNat n)
  | cs => (parseDecimal cs).map Int.ofNat

/-- The token of `R` and a decimal index 0 to 7; of another index, the one of two readings that the free value
chooses (R77, I6, log 16); of anything else, a command. -/
def registerToken (cs : List Char) : Token :=
  match parseDecimal cs, parseSigned cs with
  | some n, _ =>
    if n ≤ 7 ∨ Config.badRegisterTokenIsRegister then .register n else .command ('R' :: cs)
  | none, some i =>
    if i < 0 ∧ Config.badRegisterTokenIsRegister then .register i else .command ('R' :: cs)
  | none, none => .command ('R' :: cs)

/-- A piece's token (R77). -/
def classify : List Char → Token
  | 'R' :: cs => registerToken cs
  | '#' :: cs =>
    match parseSigned cs with
    | some v => .immediate v
    | none => .command ('#' :: cs)
  | cs => .command cs

/-- The tokens of a line (R77). -/
def tokenize (line : List Char) : List Token := (splitPieces isSeparator [] line).map classify

/-! ## Mnemonics and operand shapes (R78, R79) -/

/-- The bits that a string over n, z and p sets, in any order, with repeats; none for another letter (R78, D19). -/
def brFlags : List Char → Option (Bool × Bool × Bool)
  | [] => some (false, false, false)
  | 'n' :: cs => (brFlags cs).map fun f => (true, f.2.1, f.2.2)
  | 'z' :: cs => (brFlags cs).map fun f => (f.1, true, f.2.2)
  | 'p' :: cs => (brFlags cs).map fun f => (f.1, f.2.1, true)
  | _ => none

/-- A recognised mnemonic: a command text of R78; BR carries its flags. -/
inductive MnemonicText where
  | plain (m : Mnemonic)
  | br (n z p : Bool)
  deriving DecidableEq, Repr

/-- The mnemonics matched exactly as written, in upper case (R78, D18). -/
def plainMnemonics : List (List Char × Mnemonic) :=
  [(['A', 'D', 'D'], .add), (['A', 'N', 'D'], .and), (['N', 'O', 'T'], .not), (['L', 'D'], .ld), (['S', 'T'], .st),
   (['L', 'D', 'I'], .ldi), (['S', 'T', 'I'], .sti), (['L', 'E', 'A'], .lea), (['L', 'D', 'R'], .ldr),
   (['S', 'T', 'R'], .str), (['J', 'M', 'P'], .jmp), (['T', 'R', 'A', 'P'], .trap)]

/-- The recognised set (R78); none: unrecognised (R80). -/
def recognise (text : List Char) : Option MnemonicText :=
  match plainMnemonics.lookup text with
  | some m => some (.plain m)
  | none =>
    match text with
    | 'B' :: 'R' :: flags => (brFlags flags).map fun f => .br f.1 f.2.1 f.2.2
    | _ => none

/-- The encoder call of a mnemonic and its operand tokens; none where the shape is wrong, an operand missing or one too
many (R79, R82). -/
def formOf (m : MnemonicText) (operands : List Token) : Option Form :=
  match m, operands with
  | .plain .add, [.register d, .register a, .register b] => some (.addr d a b)
  | .plain .add, [.register d, .register a, .immediate v] => some (.addi d a v)
  | .plain .and, [.register d, .register a, .register b] => some (.andr d a b)
  | .plain .and, [.register d, .register a, .immediate v] => some (.andi d a v)
  | .plain .not, [.register d, .register a] => some (.not d a)
  | .plain .ld, [.register d, .immediate v] => some (.ld d v)
  | .plain .st, [.register d, .immediate v] => some (.st d v)
  | .plain .ldi, [.register d, .immediate v] => some (.ldi d v)
  | .plain .sti, [.register d, .immediate v] => some (.sti d v)
  | .plain .lea, [.register d, .immediate v] => some (.lea d v)
  | .plain .ldr, [.register d, .register b, .immediate v] => some (.ldr d b v)
  | .plain .str, [.register d, .register b, .immediate v] => some (.str d b v)
  | .plain .jmp, [.register b] => some (.jmp b)
  | .plain .trap, [.immediate v] => some (.trap v)
  | .br n z p, [.immediate v] => some (.br n z p v)
  | _, _ => none

/-! ## Assembling (R80 to R83) -/

/-- The fatal errors of the assembler, with R116's info. -/
inductive AsmError where
  /-- The first token is no command, or the operands have the wrong shape (R81, R82). -/
  | malformedOperand (line : List Char)
  /-- An operand out of range (R66). -/
  | encodingRange (e : RangeError)
  /-- The cursor advanced from 0xFFFF (R83, D22). -/
  | pcOverflow (cursor : Word)
  deriving DecidableEq, Repr

/-- The class of an assembler error (R116). -/
def AsmError.errorClass : AsmError → ErrorClass
  | .malformedOperand _ => .malformedOperand
  | .encodingRange _ => .encodingRangeError
  | .pcOverflow _ => .pcOverflow

/-- The assembler's own state (R83). -/
structure AsmState where
  /-- The output buffer: unemitted slots read zero. -/
  image : Memory
  /-- The slot the next word goes to. -/
  cursor : Word
  /-- The lines that got the unrecognised-mnemonic diagnostic, oldest first; its text is not modelled (R80, D29, log 18). -/
  diagnostics : List (List Char)
  deriving DecidableEq, Repr

/-- The assembler before the first line (R83). -/
def AsmState.start : AsmState := ⟨[], Config.entryPoint, []⟩

/-- One encoded word stored at the cursor, and the cursor advanced; from 0xFFFF the advance is fatal (R83). -/
def AsmState.emit (st : AsmState) (w : Word) : Except AsmError AsmState :=
  if st.cursor = 0xFFFF#16 then .error (.pcOverflow st.cursor)
  else .ok { st with image := st.image.write st.cursor w, cursor := st.cursor + 1#16 }

/-- What a line whose first character is no `;` does, by its tokens (R79 to R83). Shape errors come before range
errors (R118). -/
def assembleTokens (line : List Char) (st : AsmState) : List Token → Except AsmError AsmState
  | [] => .ok st
  | .command text :: operands =>
    match recognise text with
    | none => .ok { st with diagnostics := st.diagnostics ++ [line] }
    | some m =>
      match formOf m operands with
      | none => .error (.malformedOperand line)
      | some f =>
        match encodeForm f with
        | .error e => .error (.encodingRange e)
        | .ok w => st.emit w
  | .register _ :: _ => .error (.malformedOperand line)
  | .immediate _ :: _ => .error (.malformedOperand line)

/-- One line: a full-line comment and a blank line emit nothing (R76). -/
def assembleLine (line : List Char) (st : AsmState) : Except AsmError AsmState :=
  if line.head? = some ';' then .ok st else assembleTokens line st (tokenize line)

/-- Lines in order; the first failing line ends the assembly (R118). -/
def assembleFrom : AsmState → List (List Char) → Except AsmError AsmState
  | st, [] => .ok st
  | st, line :: rest =>
    match assembleLine line st with
    | .error e => .error e
    | .ok st' => assembleFrom st' rest

/-- The assembler on a list of lines (R83). -/
def assemble (lines : List (List Char)) : Except AsmError AsmState := assembleFrom AsmState.start lines

/-- The lines of a source text (R76, log 17). -/
def linesOf (cur : List Char) : List Char → List (List Char)
  | [] => if cur.isEmpty then [] else [cur.reverse]
  | c :: cs => if c == '\n' then cur.reverse :: linesOf [] cs else linesOf (c :: cur) cs

/-- The start of `run <source-file>`: no state is created where the assembly fails (R128, D27). -/
def runStart (source : List Char) : Except AsmError State :=
  match assemble (linesOf [] source) with
  | .error e => .error e
  | .ok st => .ok (State.resetWith st.image)

/-- What `asm <source-file>` writes (R128). -/
def asmImage (order : ByteOrder) (source : List Char) : Except AsmError (List Byte) :=
  match assemble (linesOf [] source) with
  | .error e => .error e
  | .ok st => .ok (writeImage order st.image)

end Sys2Proof.Machine
end

