-- ==== Sys2Proof/Machine/Run.lean ====
section
/-! DEFINITION. run-to-halt (R93, R94), and what the host may do between steps (R31). -/

namespace Sys2Proof.Machine

/-- `k` steps, stopping at the first fault or hold. -/
def runSteps : Nat → State → Result
  | 0, s => .next s
  | k + 1, s =>
    match step s with
    | .next s' => runSteps k s'
    | .fault f => .fault f
    | .refused r => .refused r

/-- How a run stands after some fuel (R93). -/
inductive RunResult where
  /-- The halted flag is true: the run ended well, in this final state (R94). -/
  | halted (s : State)
  /-- A step faulted: the run has no final state (R94, R117). -/
  | aborted (f : Fault)
  /-- A step holds in this state, waiting for console input (R93, R133). -/
  | held (r : Refusal) (s : State)
  /-- The fuel ran out: no result, neither a halt nor a fault (R93, D26, log 15). -/
  | noResult (s : State)
  deriving DecidableEq, Repr

/-- `run-to-halt`: `step` again and again until the halted flag is true (R93). -/
def runToHalt : Nat → State → RunResult
  | 0, s => if s.halted then .halted s else .noResult s
  | fuel + 1, s =>
    if s.halted then .halted s
    else
      match step s with
      | .next s' => runToHalt fuel s'
      | .fault f => .aborted f
      | .refused r => .held r s

/-- What the host may do to the state between steps; it never writes `halted` (R31, D23). -/
inductive HostAction where
  | writeReg (i : RegIdx) (v : Word)
  | writePc (v : Word)
  | writeCc (c : CC)
  | writeMem (a v : Word)
  /-- Delivers one value to console input; above 255 it is an end-of-input sentinel (R13). -/
  | supplyInput (v : Nat)
  deriving DecidableEq, Repr

/-- The effect of a host action (R31, D23). -/
def applyHost (h : HostAction) (s : State) : State :=
  match h with
  | .writeReg i v => s.setReg i v
  | .writePc v => s.setPc v
  | .writeCc c => { s with cc := c }
  | .writeMem a v => s.store a v
  | .supplyInput v => { s with input := s.input ++ [v] }

end Sys2Proof.Machine
end

