-- ==== Sys2Proof/Safety.lean ====
section
/-! DEFINITION. What counts as a safe step and a good end, the machine's invariant, and the frames claims are stated in. -/

namespace Sys2Proof.Machine

/-- The invariant every step keeps: memory is in its canonical form (log 6). -/
def State.Inv (s : State) : Prop := s.mem.wf = true

/-- A step that answers a next state (R92a). -/
def SafeStep (s : State) : Prop := ∃ t, step s = .next t

/-- A run from `s` ends well in `t` (R94). -/
def EndsWell (s t : State) : Prop := ∃ fuel, runToHalt fuel s = .halted t

/-- Nothing but the register `d` and the pc differs. -/
def OnlyRegisterAndPc (d : RegIdx) (s t : State) : Prop :=
  (∀ r, r ≠ d → t.reg r = s.reg r) ∧ t.cc = s.cc ∧ t.halted = s.halted ∧ t.mem = s.mem ∧ t.out = s.out ∧
    t.input = s.input

/-- Nothing but the memory cell at `a` and the pc differs: every byte of memory outside the cell reads as before. -/
def OnlyCellAndPc (a : Word) (s t : State) : Prop :=
  (∀ r, t.reg r = s.reg r) ∧ t.cc = s.cc ∧ t.halted = s.halted ∧ t.out = s.out ∧ t.input = s.input ∧
    ∀ b : Nat, b ≠ 2 * a.toNat → b ≠ 2 * a.toNat + 1 → t.mem.readByte b = s.mem.readByte b

/-- Nothing but the pc differs. -/
def OnlyPc (s t : State) : Prop :=
  (∀ r, t.reg r = s.reg r) ∧ t.cc = s.cc ∧ t.halted = s.halted ∧ t.mem = s.mem ∧ t.out = s.out ∧ t.input = s.input

/-- The instructions whose handler calls IncPC before anything else (R89). -/
def advancesFirst : Instr → Bool
  | .addReg _ _ _ | .addImm _ _ _ | .andReg _ _ _ | .andImm _ _ _ | .notReg _ _ | .ld _ _ | .st _ _ | .ldr _ _ _
  | .str _ _ _ | .lea _ _ | .br _ _ _ _ => true
  | .ldi _ _ | .sti _ _ | .jmp _ | .trap _ | .trapOut | .trapGetc | .trapHalt | .illegal4 | .illegal8 | .illegalD => false

/-- The registers an instruction reads: the second column of R16's table. -/
def readsOf : Instr → List RegIdx
  | .addReg _ a b | .andReg _ a b => [a, b]
  | .addImm _ a _ | .andImm _ a _ | .notReg _ a => [a]
  | .ld _ _ | .lea _ _ | .ldi _ _ | .sti _ _ | .br _ _ _ _ => []
  | .st r _ => [r]
  | .ldr _ b _ => [b]
  | .str r b _ => [r, b]
  | .jmp b => [b]
  | .trap v => if v = 0x21#8 then [0] else []
  | .trapOut => [0]
  | .trapGetc | .trapHalt | .illegal4 | .illegal8 | .illegalD => []

/-- The registers an instruction writes: the third column of R16's table. -/
def writesOf : Instr → List RegIdx
  | .addReg d _ _ | .andReg d _ _ | .addImm d _ _ | .andImm d _ _ | .notReg d _ | .ld d _ | .lea d _ | .ldr d _ _ => [d]
  | .ldi _ _ | .sti _ _ | .br _ _ _ _ | .st _ _ | .str _ _ _ | .jmp _ => []
  | .trap v => if v = 0x23#8 then [0] else []
  | .trapGetc => [0]
  | .trapOut | .trapHalt | .illegal4 | .illegal8 | .illegalD => []

/-! ## Words and forms (R65, R68, R73) -/

/-- The bits of a word that R65 does not list as ignored, for the word's opcode and form: zeros at ADD/AND register
form bits 4:3, NOT bits 5:0, JMP bits 11:9 and 5:0, TRAP bits 11:8. -/
def usedBits (w : Word) : Word :=
  let op := w.toNat / 4096
  if (op = 0x1 ∨ op = 0x5) ∧ w.toNat / 32 % 2 = 0 then 0xFFE7#16
  else if op = 0x9 then 0xFFC0#16
  else if op = 0xC then 0xF1C0#16
  else if op = 0xF then 0xF0FF#16
  else 0xFFFF#16

/-- The words that the encoder can give back: the conditions of R73's second law. -/
def CanonicalWord (w : Word) : Prop :=
  let op := w.toNat / 4096
  (op ≠ 0x4 ∧ op ≠ 0x8 ∧ op ≠ 0xD) ∧
  ((op = 0x1 ∨ op = 0x5) ∧ w.toNat / 32 % 2 = 0 → w.toNat / 8 % 4 = 0) ∧
  (op = 0x9 → w.toNat % 64 = 63) ∧
  (op = 0xC → w.toNat / 512 % 8 = 0 ∧ w.toNat % 64 = 0) ∧
  (op = 0xF → w.toNat / 256 % 16 = 0 ∧ (w.toNat % 256 = 0x21 ∨ w.toNat % 256 = 0x23 ∨ w.toNat % 256 = 0x25))

/-- A register index in range (R67). -/
def RegInRange (r : Int) : Prop := 0 ≤ r ∧ r ≤ 7

/-- Every operand of a form is in range (R67 to R69). -/
def FormInRange : Form → Prop
  | .addr d a b | .andr d a b => RegInRange d ∧ RegInRange a ∧ RegInRange b
  | .addi d a imm | .andi d a imm => RegInRange d ∧ RegInRange a ∧ (-16 ≤ imm ∧ imm ≤ 15)
  | .not d a => RegInRange d ∧ RegInRange a
  | .ld r off | .st r off | .ldi r off | .sti r off | .lea r off => RegInRange r ∧ (-256 ≤ off ∧ off ≤ 255)
  | .ldr r b off | .str r b off => RegInRange r ∧ RegInRange b ∧ (-32 ≤ off ∧ off ≤ 31)
  | .br _ _ _ off => -256 ≤ off ∧ off ≤ 255
  | .jmp b => RegInRange b
  | .trap v => v = 0x21 ∨ v = 0x23 ∨ v = 0x25

end Sys2Proof.Machine
end

