-- ==== Sys2Proof/Certificates/Slice0/Obligations.lean ====
section
/-! DEFINITION. The statements for the provers. Each docstring names what of spec/ the statement formalises. -/

open Sys2Proof Sys2Proof.Machine

/-! ## Reset and the invariant -/

/-- R20's, R24's and R26's values of pc, cc and halted, and R126's empty output. That every memory word of State.reset
reads zero is deduced, the model's own (log 7): R126 gives memory as the image or buffer that fills it afterwards. The
registers' value is the model's choice (log 4) and is not stated. -/
def Obligations.ResetLeavesSpecValues : Prop :=
  State.reset.pc = 0x3000#16 ∧ State.reset.halted = false ∧ State.reset.cc = .zero ∧ State.reset.out = [] ∧
    ∀ a, State.reset.mem.read a = 0x0000#16

/-- Memory is in canonical form right after reset. -/
def Obligations.ResetMeetsInvariant : Prop := State.reset.Inv

/-- Every step keeps memory in its canonical form, in every state and not only along runs. -/
def Obligations.StepKeepsInvariant : Prop := ∀ s t : State, s.Inv → step s = .next t → t.Inv

/-! ## The step -/

/-- 40_cycle.md section 1: a running machine's step is the execution of the instruction at the pc, with nothing around it. -/
def Obligations.StepRunsDecodedInstruction : Prop :=
  ∀ (s : State) (i : Instr), s.halted = false → decode (s.mem.read s.pc) = i → step s = exec i s

/-- R86: the halted check comes before the fetch, so it holds whatever stands at the pc; and a step after HALT. -/
def Obligations.StepOfHaltedMachineFails : Prop :=
  (∀ s : State, s.halted = true → step s = .fault (.haltedMachine s.out)) ∧
    ∀ s t : State, exec .trapHalt s = .next t → step t = .fault (.haltedMachine t.out)

/-- R92: the three ways a step ends. Success appends at most one byte; a fault keeps the output written, its own byte
too (deduced, D10 and D7, logs 8 and 13); only TRAP 0x23 holds, and the step resumes when the host supplies a byte (log 9).
Bits 11:8 of a TRAP word are not read (D8, log 14). -/
def Obligations.StepEndsInOneOfThreeWays : Prop :=
  ∀ s : State,
    (∀ t, step s = .next t → t.out = s.out ∨ ∃ b, t.out = s.out ++ [b]) ∧
    (∀ f, step s = .fault f → f.out = s.out ∨ (∃ b, f.out = s.out ++ [b])) ∧
    (∀ r, step s = .refused r →
      r = .awaitingInput ∧ (s.mem.read s.pc).toNat / 4096 = 0xF ∧ (s.mem.read s.pc).toNat % 256 = 0x23 ∧
        (∀ v ∈ s.input, 255 < v) ∧
        ∀ c, c ≤ 255 → s.pc ≠ 0xFFFF#16 → ∃ t, step (applyHost (.supplyInput c) s) = .next t ∧ (t.reg 0).toNat = c)

/-- R90: the advance adds one and is fatal from 0xFFFF, before any other effect; JMP and HALT do not advance. That OUT's
byte is already in the output and GETC's value taken when they overflow is deduced from the spec's decision D7, the
model's choice (log 13). -/
def Obligations.AdvanceFromTopIsFatal : Prop :=
  (∀ (s : State) (i : Instr), advancesFirst i = true → s.pc = 0xFFFF#16 →
    exec i s = .fault (.pcOverflow 0xFFFF#16 s.out)) ∧
  (∀ (s : State) (i : Instr), advancesFirst i = true → s.pc ≠ 0xFFFF#16 →
    ∃ t, exec i s = .next t ∧ ((∀ n z p off, i ≠ .br n z p off) → t.pc.toNat = s.pc.toNat + 1)) ∧
  (∀ s : State, s.pc = 0xFFFF#16 →
    exec .trapOut s = .fault (.pcOverflow 0xFFFF#16 (s.out ++ [lowHalf (s.reg 0)]))) ∧
  (∀ (s : State) (v : Nat), s.pc = 0xFFFF#16 → v ∈ s.input → v ≤ 255 →
    exec .trapGetc s = .fault (.pcOverflow 0xFFFF#16 s.out)) ∧
  (∀ (s : State) (b : RegIdx), s.pc = 0xFFFF#16 → exec (.jmp b) s = .next (s.setPc (s.reg b))) ∧
  ∀ s : State, s.pc = 0xFFFF#16 → exec .trapHalt s = .next { s with halted := true }

/-- R91: an opcode that OPCODE_MAP assigns to no mnemonic faults with that opcode, and nothing changes first. -/
def Obligations.UnassignedOpcodeIsFatal : Prop :=
  ∀ s : State, s.halted = false → (∀ m, Config.opcodeMap m ≠ opcodeField (s.mem.read s.pc)) →
    step s = .fault (.unknownOpcode (opcodeField (s.mem.read s.pc)) s.pc s.out)

/-- 60_exceptions.md section 1: exactly when a step faults, with which class, and which class comes first. Three parts are
the model's choice: the opcode numbers, the default map (log 1); the fault of LDI and STI, opcodes 0xA and 0xB (D2,
log 2); the I/O of OUT and GETC at 0xFFFF before they overflow (D7, log 13). TRAP's bits 11:8 are not read (D8, log 14). -/
def Obligations.StepFaultsExactlyWhen : Prop :=
  ∀ (s : State) (f : Fault), step s = .fault f ↔
    (s.halted = true ∧ f = .haltedMachine s.out) ∨
    (s.halted = false ∧ (∃ op ∈ [0x4, 0x8, 0xA, 0xB, 0xD], (s.mem.read s.pc).toNat / 4096 = op ∧
      f = .unknownOpcode (BitVec.ofNat 4 op) s.pc s.out)) ∨
    (s.halted = false ∧ (s.mem.read s.pc).toNat / 4096 ∈ [0x0, 0x1, 0x2, 0x3, 0x5, 0x6, 0x7, 0x9, 0xE] ∧
      s.pc = 0xFFFF#16 ∧ f = .pcOverflow s.pc s.out) ∨
    (s.halted = false ∧ (s.mem.read s.pc).toNat / 4096 = 0xF ∧
      (s.mem.read s.pc).toNat % 256 ∉ [0x21, 0x23, 0x25] ∧
      f = .unimplementedTrap (BitVec.ofNat 8 ((s.mem.read s.pc).toNat % 256)) s.out) ∨
    (s.halted = false ∧ (s.mem.read s.pc).toNat / 4096 = 0xF ∧ s.pc = 0xFFFF#16 ∧
      (((s.mem.read s.pc).toNat % 256 = 0x21 ∧ f = .pcOverflow s.pc (s.out ++ [lowHalf (s.reg 0)])) ∨
       ((s.mem.read s.pc).toNat % 256 = 0x23 ∧ (∃ v ∈ s.input, v ≤ 255) ∧ f = .pcOverflow s.pc s.out)))

/-- 40_cycle.md section 1, 60_exceptions.md section 1: at every pc below 0xFFFF, a step that no named error or hold covers
completes. JMP and HALT complete at 0xFFFF too: AdvanceFromTopIsFatal, JmpCompletes and HaltCompletes say so. The model's
choices in it: the opcode numbers, the default map (log 1); 0xA and 0xB among the opcodes left out (D2, log 2); a word
completes whatever its ignored bits hold (D8, log 14). -/
def Obligations.RunningStepCompletes : Prop :=
  ∀ s : State, s.halted = false → s.pc ≠ 0xFFFF#16 →
    (s.mem.read s.pc).toNat / 4096 ∉ [0x4, 0x8, 0xA, 0xB, 0xD] →
    ((s.mem.read s.pc).toNat / 4096 = 0xF → (s.mem.read s.pc).toNat % 256 ∈ [0x21, 0x23, 0x25]) →
    ((s.mem.read s.pc).toNat / 4096 = 0xF → (s.mem.read s.pc).toNat % 256 = 0x23 → ∃ v ∈ s.input, v ≤ 255) →
    SafeStep s

/-- 40_cycle.md section 1, 43_control.md: the pc after every successful step.
Opcode numbers: the default map, the model's choice (log 1). -/
def Obligations.PcAfterStep : Prop :=
  ∀ s t : State, step s = .next t →
    let ir := (s.mem.read s.pc).toNat
    (ir / 4096 = 0xC → ∀ b : RegIdx, ir / 64 % 8 = b.val → t.pc = s.reg b) ∧
    (ir / 4096 = 0xF ∧ ir % 256 = 0x25 → t.pc = s.pc) ∧
    (ir / 4096 = 0x0 → t.pc.toNat = s.pc.toNat + 1 ∨ (t.pc.toNat : Int) = (s.pc.toNat + 1 + sextInt 9 (ir % 512)) % 65536) ∧
    (ir / 4096 ∉ [0x0, 0xC] → ¬(ir / 4096 = 0xF ∧ ir % 256 = 0x25) → t.pc.toNat = s.pc.toNat + 1)

/-! ## The condition code and the halted flag -/

/-- R23: no instruction writes cc, along runs of any length; of the host's actions, only its write of cc does. -/
def Obligations.NothingWritesCc : Prop :=
  (∀ (n : Nat) (s t : State), runSteps n s = .next t → t.cc = s.cc) ∧
    ∀ (h : HostAction) (s : State), (applyHost h s).cc ≠ s.cc → ∃ c, h = .writeCc c

/-- R24: reset leaves ZERO, so a program the host has not touched sees ZERO for its whole run: BR is taken exactly
when its z bit is set. Its console input may be anything. -/
def Obligations.UntouchedProgramBranchesOnZero : Prop :=
  State.reset.cc = .zero ∧
  ∀ (m : Memory) (console : List Nat) (k : Nat) (s : State),
    runSteps k { State.resetWith m with input := console } = .next s →
    s.cc = .zero ∧
    ∀ (n z p : Bool) (off : BitVec 9), s.pc ≠ 0xFFFF#16 →
      exec (.br n z p off) s =
        .next (s.setPc (if z then BitVec.ofInt 16 (s.pc.toNat + 1 + off.toInt) else BitVec.ofNat 16 (s.pc.toNat + 1)))

/-- R25: only TRAP 0x25 sets the halted flag; a halted machine takes no further step, and run-to-halt stops. -/
def Obligations.HaltedIsSetByHaltAlone : Prop :=
  (∀ s t : State, step s = .next t →
    s.halted = false ∧
      (t.halted = true ↔ (s.mem.read s.pc).toNat / 4096 = 0xF ∧ (s.mem.read s.pc).toNat % 256 = 0x25)) ∧
  (∀ s : State, s.halted = true → step s = .fault (.haltedMachine s.out)) ∧
  ∀ (s : State) (fuel : Nat), s.halted = true → runToHalt fuel s = .halted s

/-! ## Each instruction: it completes, its result, its frame -/

/-- 41_operate.md, ADD: both forms complete at every pc but the top, with the sum modulo 2^16 and nothing else. -/
def Obligations.AddCompletes : Prop :=
  ∀ (s : State) (d a : RegIdx), s.pc ≠ 0xFFFF#16 →
    (∀ b : RegIdx, ∃ t, exec (.addReg d a b) s = .next t ∧
      (t.reg d).toNat = ((s.reg a).toNat + (s.reg b).toNat) % 65536 ∧ t.pc.toNat = s.pc.toNat + 1 ∧
      OnlyRegisterAndPc d s t) ∧
    ∀ imm : BitVec 5, ∃ t, exec (.addImm d a imm) s = .next t ∧
      ((t.reg d).toNat : Int) = ((s.reg a).toNat + sextInt 5 imm.toNat) % 65536 ∧ t.pc.toNat = s.pc.toNat + 1 ∧
      OnlyRegisterAndPc d s t

/-- 41_operate.md, AND: both forms complete, bit by bit; the immediate's bits above bit 4 repeat its bit 4. -/
def Obligations.AndCompletes : Prop :=
  ∀ (s : State) (d a : RegIdx), s.pc ≠ 0xFFFF#16 →
    (∀ b : RegIdx, ∃ t, exec (.andReg d a b) s = .next t ∧
      (∀ k, k < 16 → (t.reg d).getLsbD k = ((s.reg a).getLsbD k && (s.reg b).getLsbD k)) ∧
      t.pc.toNat = s.pc.toNat + 1 ∧ OnlyRegisterAndPc d s t) ∧
    ∀ imm : BitVec 5, ∃ t, exec (.andImm d a imm) s = .next t ∧
      (∀ k, k < 16 → (t.reg d).getLsbD k = ((s.reg a).getLsbD k && imm.getLsbD (min k 4))) ∧
      t.pc.toNat = s.pc.toNat + 1 ∧ OnlyRegisterAndPc d s t

/-- 41_operate.md, NOT: completes with the 16-bit complement, 0xFFFF - v. -/
def Obligations.NotCompletes : Prop :=
  ∀ (s : State) (d a : RegIdx), s.pc ≠ 0xFFFF#16 →
    ∃ t, exec (.notReg d a) s = .next t ∧ (t.reg d).toNat = 0xFFFF - (s.reg a).toNat ∧
      t.pc.toNat = s.pc.toNat + 1 ∧ OnlyRegisterAndPc d s t

/-- 42_data_movement.md, LD, LDR and LEA: the loads complete with the word at the wrapped address, LEA with the address
itself; the base is the old value even where it is the destination. -/
def Obligations.LoadsComplete : Prop :=
  ∀ (s : State) (d : RegIdx), s.pc ≠ 0xFFFF#16 →
    (∀ off : BitVec 9, ∃ t, exec (.ld d off) s = .next t ∧
      t.reg d = s.mem.read (BitVec.ofInt 16 (s.pc.toNat + 1 + sextInt 9 off.toNat)) ∧ t.pc.toNat = s.pc.toNat + 1 ∧
      OnlyRegisterAndPc d s t) ∧
    (∀ (b : RegIdx) (off : BitVec 6), ∃ t, exec (.ldr d b off) s = .next t ∧
      t.reg d = s.mem.read (BitVec.ofInt 16 ((s.reg b).toNat + sextInt 6 off.toNat)) ∧ t.pc.toNat = s.pc.toNat + 1 ∧
      OnlyRegisterAndPc d s t) ∧
    ∀ off : BitVec 9, ∃ t, exec (.lea d off) s = .next t ∧
      ((t.reg d).toNat : Int) = (s.pc.toNat + 1 + sextInt 9 off.toNat) % 65536 ∧ t.pc.toNat = s.pc.toNat + 1 ∧
      OnlyRegisterAndPc d s t

/-- 42_data_movement.md, ST and STR: the stores complete; the cell at the meaning's own address holds the source
register, and every byte outside that cell, every register and every other field is as before. -/
def Obligations.StoresComplete : Prop :=
  ∀ (s : State) (r : RegIdx), s.pc ≠ 0xFFFF#16 →
    (∀ off : BitVec 9, ∃ t, exec (.st r off) s = .next t ∧
      t.mem.read (pcRelative (s.setPc (s.pc + 1#16)) off) = s.reg r ∧ t.pc.toNat = s.pc.toNat + 1 ∧
      OnlyCellAndPc (pcRelative (s.setPc (s.pc + 1#16)) off) s t) ∧
    ∀ (b : RegIdx) (off : BitVec 6), ∃ t, exec (.str r b off) s = .next t ∧
      t.mem.read (strAddress s b off) = s.reg r ∧ t.pc.toNat = s.pc.toNat + 1 ∧
      OnlyCellAndPc (strAddress s b off) s t

/-- 42_data_movement.md, ST and STR; C2: the addresses the stores compute. STR's executor reads five bits of the offset
(STR_EXEC_OFFSET_WIDTH = 5, log 3), so an offset outside -16 to 15 lands 32 words away; with six bits it would be
the encoder's reading, as LDR's is. -/
def Obligations.StoreAddresses : Prop :=
  (∀ (s : State) (off : BitVec 9), ((pcRelative s off).toNat : Int) = (s.pc.toNat + sextInt 9 off.toNat) % 65536) ∧
  (∀ (s : State) (b : RegIdx) (off : BitVec 6),
    let v := sextInt 6 off.toNat
    ((strAddress s b off).toNat : Int) =
      ((s.reg b).toNat + (if 16 ≤ v then v - 32 else if v < -16 then v + 32 else v)) % 65536) ∧
  ∀ off : BitVec 6, strOffset 6 off = BitVec.ofInt 16 (sextInt 6 off.toNat)

/-- 43_control.md, BR: it completes for every combination of its bits, taken or not, and changes only the pc. -/
def Obligations.BrCompletes : Prop :=
  ∀ (s : State) (n z p : Bool) (off : BitVec 9), s.pc ≠ 0xFFFF#16 →
    ∃ t, exec (.br n z p off) s = .next t ∧ OnlyPc s t ∧
      (((n = true ∧ s.cc = .negative) ∨ (z = true ∧ s.cc = .zero) ∨ (p = true ∧ s.cc = .positive)) →
        (t.pc.toNat : Int) = (s.pc.toNat + 1 + sextInt 9 off.toNat) % 65536) ∧
      (¬((n = true ∧ s.cc = .negative) ∨ (z = true ∧ s.cc = .zero) ∨ (p = true ∧ s.cc = .positive)) →
        t.pc.toNat = s.pc.toNat + 1)

/-- 43_control.md, JMP: it completes in every state, at 0xFFFF too, and changes only the pc; and so does its word, of
which it reads bits 8:6 alone (D8, log 14).
Opcode numbers: the default map, the model's choice (log 1). -/
def Obligations.JmpCompletes : Prop :=
  (∀ (s : State) (b : RegIdx), ∃ t, exec (.jmp b) s = .next t ∧ t.pc = s.reg b ∧ OnlyPc s t) ∧
  ∀ (s : State) (b : RegIdx), s.halted = false → (s.mem.read s.pc).toNat / 4096 = 0xC →
    (s.mem.read s.pc).toNat / 64 % 8 = b.val → step s = .next (s.setPc (s.reg b))

/-- 44_trap.md, OUT: R0's low byte is appended and the pc advances; nothing else changes. -/
def Obligations.OutCompletes : Prop :=
  ∀ s : State, s.pc ≠ 0xFFFF#16 →
    ∃ t, exec .trapOut s = .next t ∧ (∃ b : Byte, b.toNat = (s.reg 0).toNat % 256 ∧ t.out = s.out ++ [b]) ∧
      t.pc.toNat = s.pc.toNat + 1 ∧ (∀ r, t.reg r = s.reg r) ∧ t.cc = s.cc ∧ t.halted = s.halted ∧ t.mem = s.mem ∧
      t.input = s.input

/-- 44_trap.md, GETC: the first delivered value up to 255 goes to R0 zero-extended, what the host delivered before it is
discarded, nothing is echoed; with none delivered the step holds. -/
def Obligations.GetcCompletesOrHolds : Prop :=
  (∀ (s : State) (sentinels rest : List Nat) (c : Nat), s.pc ≠ 0xFFFF#16 → s.input = sentinels ++ c :: rest →
    (∀ v ∈ sentinels, 255 < v) → c ≤ 255 →
    ∃ t, exec .trapGetc s = .next t ∧ (t.reg 0).toNat = c ∧ t.input = rest ∧ t.pc.toNat = s.pc.toNat + 1 ∧
      (∀ r, r ≠ 0 → t.reg r = s.reg r) ∧ t.cc = s.cc ∧ t.halted = s.halted ∧ t.mem = s.mem ∧ t.out = s.out) ∧
  ∀ s : State, (∀ v ∈ s.input, 255 < v) → exec .trapGetc s = .refused .awaitingInput

/-- R114, HALT: word 0xF025; it completes in every state, at 0xFFFF too, and changes only the halted flag; every later
step raises HaltedMachine and run-to-halt returns. -/
def Obligations.HaltCompletes : Prop :=
  decode 0xF025#16 = .trapHalt ∧
  ∀ s : State, ∃ t, exec .trapHalt s = .next t ∧ t.halted = true ∧ t.pc = s.pc ∧ (∀ r, t.reg r = s.reg r) ∧
    t.cc = s.cc ∧ t.mem = s.mem ∧ t.out = s.out ∧ t.input = s.input ∧
    step t = .fault (.haltedMachine t.out) ∧ ∀ fuel, runToHalt fuel t = .halted t

/-- 44_trap.md, TRAP: the plain TRAP term dispatches on its vector as the three services' own terms do; it completes
as HALT in every state and as OUT below the top; every other vector is fatal and changes nothing. -/
def Obligations.TrapDispatchesOnVector : Prop :=
  (∀ s : State, exec (.trap 0x21#8) s = exec .trapOut s ∧ exec (.trap 0x23#8) s = exec .trapGetc s ∧
    exec (.trap 0x25#8) s = exec .trapHalt s) ∧
  (∀ s : State, exec (.trap 0x25#8) s = .next { s with halted := true }) ∧
  (∀ s : State, s.pc ≠ 0xFFFF#16 → ∃ t, exec (.trap 0x21#8) s = .next t) ∧
  ∀ (s : State) (v : BitVec 8), v.toNat ∉ [0x21, 0x23, 0x25] → exec (.trap v) s = .fault (.unimplementedTrap v s.out)

/-- R115: a TRAP word with any other vector raises UnimplementedTrap with its vector, at every pc, and nothing changes
first; the encoder never produces it. -/
def Obligations.OtherTrapVectorIsFatal : Prop :=
  (∀ s : State, s.halted = false → (s.mem.read s.pc).toNat / 4096 = 0xF →
    (s.mem.read s.pc).toNat % 256 ∉ [0x21, 0x23, 0x25] →
    step s = .fault (.unimplementedTrap (BitVec.ofNat 8 ((s.mem.read s.pc).toNat % 256)) s.out)) ∧
  ∀ (f : Form) (w : Word), encodeForm f = .ok w → w.toNat / 4096 = 0xF →
    w.toNat / 256 % 16 = 0 ∧ w.toNat % 256 ∈ [0x21, 0x23, 0x25]

/-- 42_data_movement.md, LDI and STI: executing them always raises UnknownOpcode with their opcode, before the pc
advance and at every pc (D2, log 2).
Opcode numbers: the default map, the model's choice (log 1). -/
def Obligations.LdiAndStiAlwaysFault : Prop :=
  ∀ (s : State) (r : RegIdx) (off : BitVec 9),
    exec (.ldi r off) s = .fault (.unknownOpcode 0xA#4 s.pc s.out) ∧
    exec (.sti r off) s = .fault (.unknownOpcode 0xB#4 s.pc s.out)

/-- 40_cycle.md section 1: each illegal term always raises UnknownOpcode with its opcode.
Opcode numbers: the default map, the model's choice (log 1). -/
def Obligations.IllegalTermsAlwaysFault : Prop :=
  ∀ s : State, exec .illegal4 s = .fault (.unknownOpcode 0x4#4 s.pc s.out) ∧
    exec .illegal8 s = .fault (.unknownOpcode 0x8#4 s.pc s.out) ∧
    exec .illegalD s = .fault (.unknownOpcode 0xD#4 s.pc s.out)

/-! ## A step, from the bits of the fetched word: the handlers' pseudocode -/

/-- 41_operate.md: execADD, execAND and execNOT on the fetched word, field by field; no other bit is read (D8, log 14).
Opcode numbers: the default map, the model's choice (log 1). -/
def Obligations.OperateWordsRunAsWritten : Prop :=
  ∀ (s : State) (d a b : RegIdx), s.halted = false → s.pc ≠ 0xFFFF#16 →
    let ir := (s.mem.read s.pc).toNat
    let second : Word := if ir / 32 % 2 = 0 then s.reg b else BitVec.ofInt 16 (sextInt 5 (ir % 32))
    ir / 512 % 8 = d.val → ir / 64 % 8 = a.val → ir % 8 = b.val →
    (ir / 4096 = 0x1 → step s = .next ((s.setPc (s.pc + 1#16)).setReg d (s.reg a + second))) ∧
    (ir / 4096 = 0x5 → step s = .next ((s.setPc (s.pc + 1#16)).setReg d (s.reg a &&& second))) ∧
    (ir / 4096 = 0x9 → step s = .next ((s.setPc (s.pc + 1#16)).setReg d (~~~(s.reg a))))

/-- R101, R107, R108: execLD, execLEA and execBR on the fetched word: opcode, fields, the advance that overflows at
0xFFFF, and the whole next state everywhere else. -/
def Obligations.LdLeaAndBrRunAsWritten : Prop :=
  ∀ (s : State) (r : RegIdx), s.halted = false →
    let w := s.mem.read s.pc
    let ir := w.toNat
    let s' := s.setPc (s.pc + 1#16)
    let ea9 : Word := BitVec.ofInt 16 (s.pc.toNat + 1 + sextInt 9 (ir % 512))
    let taken := (ir / 2048 % 2 = 1 ∧ s.cc = .negative) ∨ (ir / 1024 % 2 = 1 ∧ s.cc = .zero) ∨
      (ir / 512 % 2 = 1 ∧ s.cc = .positive)
    (s.pc = 0xFFFF#16 → (opcodeField w = Config.opcodeMap .ld ∨ opcodeField w = Config.opcodeMap .lea ∨
      opcodeField w = Config.opcodeMap .br) → step s = .fault (.pcOverflow 0xFFFF#16 s.out)) ∧
    (s.pc ≠ 0xFFFF#16 →
      (opcodeField w = Config.opcodeMap .ld → ir / 512 % 8 = r.val → step s = .next (s'.setReg r (s.mem.read ea9))) ∧
      (opcodeField w = Config.opcodeMap .lea → ir / 512 % 8 = r.val → step s = .next (s'.setReg r ea9)) ∧
      (opcodeField w = Config.opcodeMap .br →
        (taken → step s = .next (s.setPc ea9)) ∧ (¬taken → step s = .next s')))

/-- 42_data_movement.md: execST, execLDR and execSTR (K = 5, the model's choice, log 3) on the fetched word.
Opcode numbers: the default map, the model's choice (log 1). -/
def Obligations.StAndBaseOffsetWordsRunAsWritten : Prop :=
  ∀ (s : State) (r b : RegIdx), s.halted = false → s.pc ≠ 0xFFFF#16 →
    let ir := (s.mem.read s.pc).toNat
    let s' := s.setPc (s.pc + 1#16)
    let ea9 : Word := BitVec.ofInt 16 (s.pc.toNat + 1 + sextInt 9 (ir % 512))
    ir / 512 % 8 = r.val → ir / 64 % 8 = b.val →
    (ir / 4096 = 0x3 → step s = .next (s'.store ea9 (s.reg r))) ∧
    (ir / 4096 = 0x6 →
      step s = .next (s'.setReg r (s.mem.read (BitVec.ofInt 16 ((s.reg b).toNat + sextInt 6 (ir % 64)))))) ∧
    (ir / 4096 = 0x7 →
      step s = .next (s'.store (BitVec.ofInt 16 ((s.reg b).toNat + sextInt 5 (ir % 32))) (s.reg r)))

/-! ## What instructions may touch -/

/-- R16: the registers each instruction reads and writes. A register it does not write keeps its value; a register it
does not read has no influence on anything but itself. -/
def Obligations.RegistersReadAndWritten : Prop :=
  (∀ (i : Instr) (s t : State) (r : RegIdx), exec i s = .next t → r ∉ writesOf i → t.reg r = s.reg r) ∧
  (∀ (i : Instr) (s t : State) (q : RegIdx) (v : Word), q ∉ readsOf i → exec i s = .next t →
    ∃ t', exec i (s.setReg q v) = .next t' ∧ t'.pc = t.pc ∧ t'.cc = t.cc ∧ t'.halted = t.halted ∧ t'.mem = t.mem ∧
      t'.out = t.out ∧ t'.input = t.input ∧ (∀ r, r ≠ q ∨ r ∈ writesOf i → t'.reg r = t.reg r)) ∧
  ∀ (i : Instr) (s : State) (f : Fault) (q : RegIdx) (v : Word), q ∉ readsOf i → exec i s = .fault f →
    exec i (s.setReg q v) = .fault f

/-- 20_memory.md sections 1 and 2: a step changes memory only by ST or STR, in one cell, to the value of the register
named by bits 11:9.
Opcode numbers: the default map, the model's choice (log 1). -/
def Obligations.MemoryChangesOnlyByStores : Prop :=
  ∀ (s t : State) (a : Word), step s = .next t → t.mem.read a ≠ s.mem.read a →
    ((s.mem.read s.pc).toNat / 4096 = 0x3 ∨ (s.mem.read s.pc).toNat / 4096 = 0x7) ∧
    (∀ r : RegIdx, (s.mem.read s.pc).toNat / 512 % 8 = r.val → t.mem.read a = s.reg r) ∧
    ∀ a', a' ≠ a → t.mem.read a' = s.mem.read a'

/-- 20_memory.md section 4: a store is seen by the next fetch of its cell, with nothing in between: the stored word is
the one that runs. -/
def Obligations.StoredWordIsExecuted : Prop :=
  (∀ (s t : State) (r : RegIdx) (off : BitVec 9), exec (.st r off) s = .next t → t.halted = false →
    step (t.setPc (pcRelative (s.setPc (s.pc + 1#16)) off)) =
      exec (decode (s.reg r)) (t.setPc (pcRelative (s.setPc (s.pc + 1#16)) off))) ∧
  ∀ (s t : State) (r b : RegIdx) (off : BitVec 6), exec (.str r b off) s = .next t → t.halted = false →
    step (t.setPc (strAddress s b off)) = exec (decode (s.reg r)) (t.setPc (strAddress s b off))

/-- R99: addition is the same for unsigned and signed readings and overflow has no effect; a - b is NOT, ADD #1, ADD
through a register that does not hold a; AND and NOT are bitwise. -/
def Obligations.ArithmeticLaws : Prop :=
  (∀ (s : State) (d a b : RegIdx), s.pc ≠ 0xFFFF#16 → ∃ t, exec (.addReg d a b) s = .next t ∧
    (t.reg d).toNat = ((s.reg a).toNat + (s.reg b).toNat) % 65536 ∧
    ((t.reg d).toInt - ((s.reg a).toInt + (s.reg b).toInt)) % 65536 = 0 ∧ t.cc = s.cc ∧ t.halted = s.halted) ∧
  (∀ (s : State) (d a b u : RegIdx), u ≠ a → s.pc.toNat + 3 ≤ 0xFFFF → ∃ s1 s2 s3,
    exec (.notReg u b) s = .next s1 ∧ exec (.addImm u u 1#5) s1 = .next s2 ∧ exec (.addReg d a u) s2 = .next s3 ∧
    ((s3.reg d).toNat : Int) = ((s.reg a).toNat - (s.reg b).toNat) % 65536) ∧
  ∀ (s : State) (d a b : RegIdx) (k : Nat), s.pc ≠ 0xFFFF#16 → k < 16 →
    (∃ t, exec (.andReg d a b) s = .next t ∧ (t.reg d).getLsbD k = ((s.reg a).getLsbD k && (s.reg b).getLsbD k)) ∧
    ∃ t, exec (.notReg d a) s = .next t ∧ (t.reg d).getLsbD k = !(s.reg a).getLsbD k

/-! ## Encoding and decoding -/

/-- R67, R68, R69: each check accepts exactly its range and names the value it refuses, a signed field is its value
modulo 2^N, and an encoder function accepts exactly the operands in range. -/
def Obligations.EncoderAcceptsExactlyInRange : Prop :=
  (∀ f : Form, (∃ w, encodeForm f = .ok w) ↔ FormInRange f) ∧
  (∀ r : Int, checkReg r = if 0 ≤ r ∧ r ≤ 7 then .ok r else .error ⟨r, 3⟩) ∧
  (∀ v : Int, (checkSigned v 5 = if -16 ≤ v ∧ v ≤ 15 then .ok v else .error ⟨v, 5⟩) ∧
    (checkSigned v 6 = if -32 ≤ v ∧ v ≤ 31 then .ok v else .error ⟨v, 6⟩) ∧
    (checkSigned v 9 = if -256 ≤ v ∧ v ≤ 255 then .ok v else .error ⟨v, 9⟩)) ∧
  (∀ v : Int, checkVect v = if v = 0x21 ∨ v = 0x23 ∨ v = 0x25 then .ok v else .error ⟨v, 8⟩) ∧
    ∀ (v : Int) (N : Nat), N ≤ 16 → ((pack v N).toNat : Int) = v % 2 ^ N

/-- R65, R73: the round-trip laws. The decoder gives back the operands of every form the encoder accepts; the encoder
gives back exactly the canonical words; words that differ only in ignored bits decode and execute alike (D8, log 14).
Opcode numbers: the default map, the model's choice (log 1). -/
def Obligations.RoundTripLaws : Prop :=
  (∀ (f : Form) (w : Word), encodeForm f = .ok w → (decode w).form = .ok f) ∧
  (∀ w : Word, encode (decode w) = .ok w ↔ CanonicalWord w) ∧
  ∀ w w' : Word, w &&& usedBits w = w' &&& usedBits w → decode w = decode w' ∧
    ∀ s : State, exec (decode w) s = exec (decode w') s

/-- 30_encoding.md sections 5 and 6, for terms: decoding the word of a well-formed term gives the term back, every
operand at every value; and every such term but a TRAP of an illegal vector and the illegal terms has a word. -/
def Obligations.DecodeOfEncodeIsIdentity : Prop :=
  ∀ i : Instr, i.wf = true →
    (∀ w, encode i = .ok w → decode w = i) ∧
    ((∀ v, i ≠ .trap v) → i ≠ .illegal4 → i ≠ .illegal8 → i ≠ .illegalD → ∃ w, encode i = .ok w)

/-- 30_encoding.md sections 2 and 3: words written out from the formats decode to the instructions they stand for.
Opcode numbers: the default map, the model's choice (log 1). -/
def Obligations.WordsOfTheFormats : Prop :=
  decode 0b0000101011111111#16 = .br true false true 0x0FF#9 ∧
  decode 0b0001001010011000#16 = .addReg 1 2 0 ∧
  decode 0b0001001010111111#16 = .addImm 1 2 0x1F#5 ∧
  decode 0b0110001010111111#16 = .ldr 1 2 0x3F#6 ∧
  decode 0b0111001010010000#16 = .str 1 2 0x10#6 ∧
  decode 0b1001111000111111#16 = .notReg 7 0 ∧
  decode 0b1011001111111111#16 = .sti 1 0x1FF#9 ∧
  decode 0b1100000111000000#16 = .jmp 7 ∧
  decode 0b1111000100100101#16 = .trapHalt ∧
  decode 0b1101000100100011#16 = .illegalD

/-- R58's conditions on OPCODE_MAP and R59's three gaps, of the default map, the model's choice (log 1): the map is
injective, TRAP is 0xF, exactly 0x4, 0x8 and 0xD are unassigned; the decoder gives each its illegal term and no encoder
function produces such a word. -/
def Obligations.OpcodeMapAndItsGaps : Prop :=
  (∀ m m' : Mnemonic, Config.opcodeMap m = Config.opcodeMap m' → m = m') ∧ Config.opcodeMap .trap = 0xF#4 ∧
  (∀ op : BitVec 4, (∀ m, Config.opcodeMap m ≠ op) ↔ op ∈ [0x4#4, 0x8#4, 0xD#4]) ∧
  (∀ w : Word, (decode w = .illegal4 ↔ opcodeField w = 0x4#4) ∧ (decode w = .illegal8 ↔ opcodeField w = 0x8#4) ∧
    (decode w = .illegalD ↔ opcodeField w = 0xD#4)) ∧
  ∀ (f : Form) (w : Word), encodeForm f = .ok w → opcodeField w ∉ [0x4#4, 0x8#4, 0xD#4]

/-! ## Runs and the host -/

/-- 40_cycle.md section 2: run-to-halt's result does not depend on how much fuel is left over (D26). -/
def Obligations.RunResultIsStableInFuel : Prop :=
  ∀ (n m : Nat) (s : State), (∀ u, runToHalt n s ≠ .noResult u) → n ≤ m → runToHalt m s = runToHalt n s

/-- R94: a run of a running machine ends well exactly when some step succeeds and leaves the halted flag set; its final
state is that state, with the pc at the HALT word; a run that faults has the fault of its first failing step; a run that
faults, waits or loops for ever has no final state. -/
def Obligations.RunEndsWellExactlyAtHalt : Prop :=
  (∀ s t : State, s.halted = false →
    (EndsWell s t ↔ ∃ n u, runSteps n s = .next u ∧ step u = .next t ∧ t.halted = true)) ∧
  (∀ s t : State, s.halted = false → EndsWell s t →
    (t.mem.read t.pc).toNat / 4096 = 0xF ∧ (t.mem.read t.pc).toNat % 256 = 0x25) ∧
  (∀ (n : Nat) (s : State) (f : Fault), runToHalt n s = .aborted f → ∃ k u, runSteps k s = .next u ∧ step u = .fault f) ∧
  ∀ s : State, ((∃ n f, runToHalt n s = .aborted f) ∨ (∃ n r u, runToHalt n s = .held r u) ∨
    (∀ n, ∃ u, runToHalt n s = .noResult u)) → ¬∃ t, EndsWell s t

/-- 10_state.md section 6: each host action writes what it names and nothing else, never the halted flag, and keeps the
invariant. -/
def Obligations.HostActionsWriteWhatTheyName : Prop :=
  (∀ (h : HostAction) (s : State), (applyHost h s).halted = s.halted ∧ (applyHost h s).out = s.out ∧
    (s.Inv → (applyHost h s).Inv)) ∧
  (∀ (s : State) (i : RegIdx) (v : Word), (applyHost (.writeReg i v) s).reg i = v ∧
    OnlyRegisterAndPc i s (applyHost (.writeReg i v) s) ∧ (applyHost (.writeReg i v) s).pc = s.pc) ∧
  (∀ (s : State) (v : Word), (applyHost (.writePc v) s).pc = v ∧ OnlyPc s (applyHost (.writePc v) s)) ∧
  (∀ (s : State) (a v : Word), (applyHost (.writeMem a v) s).mem.read a = v ∧
    OnlyCellAndPc a s (applyHost (.writeMem a v) s) ∧ (applyHost (.writeMem a v) s).pc = s.pc) ∧
  ∀ (s : State) (c : CC) (v : Nat), applyHost (.writeCc c) s = { s with cc := c } ∧
    applyHost (.supplyInput v) s = { s with input := s.input ++ [v] }

/-! ## The assembler -/

/-- R78: the recognised mnemonics are the twelve names, each with its mnemonic, and BR with any string over n, z and p,
each letter setting its bit whatever the order and the repeats; and nothing else is recognised. -/
def Obligations.RecognisedMnemonics : Prop :=
  let names : List (List Char × Mnemonic) :=
    [(['A', 'D', 'D'], .add), (['A', 'N', 'D'], .and), (['N', 'O', 'T'], .not), (['L', 'D'], .ld),
     (['S', 'T'], .st), (['L', 'D', 'I'], .ldi), (['S', 'T', 'I'], .sti), (['L', 'E', 'A'], .lea),
     (['L', 'D', 'R'], .ldr), (['S', 'T', 'R'], .str), (['J', 'M', 'P'], .jmp), (['T', 'R', 'A', 'P'], .trap)]
  (∀ p ∈ names, recognise p.1 = some (.plain p.2)) ∧
  (∀ flags : List Char, (∀ c ∈ flags, c = 'n' ∨ c = 'z' ∨ c = 'p') →
    recognise ('B' :: 'R' :: flags) =
      some (.br (decide ('n' ∈ flags)) (decide ('z' ∈ flags)) (decide ('p' ∈ flags)))) ∧
  (∀ (text : List Char) (m : Mnemonic), recognise text = some (.plain m) → (text, m) ∈ names) ∧
  ∀ (text : List Char) (n z p : Bool), recognise text = some (.br n z p) →
    ∃ flags, text = 'B' :: 'R' :: flags ∧ ∀ c ∈ flags, c = 'n' ∨ c = 'z' ∨ c = 'p'

/-- R80: a line whose first token is a command outside the set emits no word, leaves the cursor, and goes on with its
diagnostic recorded, whatever follows on the line. -/
def Obligations.UnrecognisedMnemonicIsSkipped : Prop :=
  ∀ (line text : List Char) (operands : List Token) (st : AsmState), line.head? ≠ some ';' →
    tokenize line = .command text :: operands → text ∉
      [['A', 'D', 'D'], ['A', 'N', 'D'], ['N', 'O', 'T'], ['L', 'D'], ['S', 'T'], ['L', 'D', 'I'], ['S', 'T', 'I'],
       ['L', 'E', 'A'], ['L', 'D', 'R'], ['S', 'T', 'R'], ['J', 'M', 'P'], ['T', 'R', 'A', 'P']] →
    (∀ flags, text = 'B' :: 'R' :: flags → ∃ c ∈ flags, c ≠ 'n' ∧ c ≠ 'z' ∧ c ≠ 'p') →
    ∃ st', assembleLine line st = .ok st' ∧ st'.image = st.image ∧ st'.cursor = st.cursor ∧
      st'.diagnostics = st.diagnostics ++ [line] ∧ ∀ rest, assembleFrom st (line :: rest) = assembleFrom st' rest

/-- R81: a line whose first token is a register or an immediate is fatal with MalformedOperand. -/
def Obligations.FirstTokenMustBeCommand : Prop :=
  ∀ (line : List Char) (first : Token) (rest : List Token) (st : AsmState), line.head? ≠ some ';' →
    tokenize line = first :: rest → (∀ text, first ≠ .command text) →
    assembleLine line st = .error (.malformedOperand line)

/-- R79's table of operand shapes, row by row, with no other shape; then 30_encoding.md section 7 and 60_exceptions.md
section 1: a recognised line with well-shaped operands in range stores its word at the cursor and advances it, and is
fatal at 0xFFFF (D22); a wrong shape is reported even where a value is out of range too. -/
def Obligations.RecognisedLineEmitsItsWord : Prop :=
  (∀ (ts : List Token) (f : Form),
    (formOf (.plain .add) ts = some f ↔
      (∃ d a b, ts = [.register d, .register a, .register b] ∧ f = .addr d a b) ∨
      (∃ d a v, ts = [.register d, .register a, .immediate v] ∧ f = .addi d a v)) ∧
    (formOf (.plain .and) ts = some f ↔
      (∃ d a b, ts = [.register d, .register a, .register b] ∧ f = .andr d a b) ∨
      (∃ d a v, ts = [.register d, .register a, .immediate v] ∧ f = .andi d a v)) ∧
    (formOf (.plain .not) ts = some f ↔
      (∃ d a, ts = [.register d, .register a] ∧ f = .not d a)) ∧
    (formOf (.plain .ld) ts = some f ↔
      (∃ r v, ts = [.register r, .immediate v] ∧ f = .ld r v)) ∧
    (formOf (.plain .st) ts = some f ↔
      (∃ r v, ts = [.register r, .immediate v] ∧ f = .st r v)) ∧
    (formOf (.plain .ldi) ts = some f ↔
      (∃ r v, ts = [.register r, .immediate v] ∧ f = .ldi r v)) ∧
    (formOf (.plain .sti) ts = some f ↔
      (∃ r v, ts = [.register r, .immediate v] ∧ f = .sti r v)) ∧
    (formOf (.plain .lea) ts = some f ↔
      (∃ r v, ts = [.register r, .immediate v] ∧ f = .lea r v)) ∧
    (formOf (.plain .ldr) ts = some f ↔
      (∃ r b v, ts = [.register r, .register b, .immediate v] ∧ f = .ldr r b v)) ∧
    (formOf (.plain .str) ts = some f ↔
      (∃ r b v, ts = [.register r, .register b, .immediate v] ∧ f = .str r b v)) ∧
    (formOf (.plain .jmp) ts = some f ↔
      (∃ b, ts = [.register b] ∧ f = .jmp b)) ∧
    (formOf (.plain .trap) ts = some f ↔
      (∃ v, ts = [.immediate v] ∧ f = .trap v)) ∧
    ∀ n z p, formOf (.br n z p) ts = some f ↔ ∃ v, ts = [.immediate v] ∧ f = .br n z p v) ∧
  ∀ (line text : List Char) (operands : List Token) (m : MnemonicText) (st : AsmState), line.head? ≠ some ';' →
    tokenize line = .command text :: operands → recognise text = some m →
    (formOf m operands = none → assembleLine line st = .error (.malformedOperand line)) ∧
    ∀ f, formOf m operands = some f →
      (¬FormInRange f → ∃ e, assembleLine line st = .error (.encodingRange e)) ∧
      (FormInRange f → st.cursor = 0xFFFF#16 → assembleLine line st = .error (.pcOverflow 0xFFFF#16)) ∧
      (FormInRange f → st.cursor ≠ 0xFFFF#16 → ∃ st', assembleLine line st = .ok st' ∧
        (decode (st'.image.read st.cursor)).form = .ok f ∧
        (∀ a, a ≠ st.cursor → st'.image.read a = st.image.read a) ∧ st'.cursor.toNat = st.cursor.toNat + 1 ∧
        st'.diagnostics = st.diagnostics)

/-- 30_encoding.md section 7, the cursor: whatever the lines, the assembled image is in canonical form, holds nothing
below 0x3000 and nothing from the cursor on. -/
def Obligations.AssembledImageIsBounded : Prop :=
  ∀ (lines : List (List Char)) (st : AsmState), assemble lines = .ok st →
    st.image.wf = true ∧ 0x3000 ≤ st.cursor.toNat ∧
      ∀ a : Word, (a.toNat < 0x3000 ∨ st.cursor.toNat ≤ a.toNat) → st.image.read a = 0x0000#16

/-- 30_encoding.md section 7, tokens: commas, tabs and spaces separate alike. -/
def Obligations.SeparatorsAreAlike : Prop :=
  ∀ line : List Char, tokenize (line.map fun c => if c = ',' ∨ c = '\t' then ' ' else c) = tokenize line

/-- 93_implementation_defined.md I6: under every recognised mnemonic, an operand token of R and a decimal index above 7,
or of R, a minus sign and a positive number, aborts the assembly: with MalformedOperand or with an EncodingRangeError.
Which one is a free value (log 16); the statement holds for either. -/
def Obligations.BadRegisterTokenAborts : Prop :=
  ∀ (line text digits : List Char) (n : Nat) (token : Token) (operands : List Token) (m : MnemonicText) (st : AsmState),
    line.head? ≠ some ';' → tokenize line = .command text :: operands → recognise text = some m →
    token ∈ operands → parseDecimal digits = some n →
    (7 < n ∧ token = classify ('R' :: digits)) ∨ (0 < n ∧ token = classify ('R' :: '-' :: digits)) →
    assembleLine line st = .error (.malformedOperand line) ∨
      ∃ e, assembleLine line st = .error (.encodingRange e)

/-! ## The image file -/

/-- R129: an assembled program written as an image and read back, in either order, is the identical memory, and so
is every memory in canonical form. -/
def Obligations.ImageRoundTrip : Prop :=
  (∀ (order : ByteOrder) (m : Memory), m.wf = true → readImage order (writeImage order m) = .ok m) ∧
  ∀ (order : ByteOrder) (lines : List (List Char)) (st : AsmState), assemble lines = .ok st →
    readImage order (writeImage order st.image) = .ok st.image

/-- R37: an image is accepted exactly when it is 131072 bytes; a file that cannot be opened raises IOError. That the
recorded size counts bytes is the model's choice (log 20). -/
def Obligations.ImageSizeIsChecked : Prop :=
  (∀ (order : ByteOrder) (bytes : List Byte),
    (bytes.length ≠ 131072 → readImage order bytes = .error (.malformedImage bytes.length)) ∧
    (bytes.length = 131072 → ∃ m, readImage order bytes = .ok m)) ∧
  ∀ (order : ByteOrder) (name : List Char), execStart order name none = .error (.ioError name)

/-- 20_memory.md section 2, 70_reset_and_hazards.md section 1: a run from an image starts at 0x3000 in the reset state
with memory as the file says, word k from bytes 2k and 2k + 1 in the order given. -/
def Obligations.ExecStartsFromImage : Prop :=
  ∀ (order : ByteOrder) (name : List Char) (bytes : List Byte), bytes.length = 131072 →
    ∃ s, execStart order name (some bytes) = .ok s ∧ s.Inv ∧ s.pc = 0x3000#16 ∧ s.cc = .zero ∧ s.halted = false ∧
      s.out = [] ∧ ∀ (k : Nat) (b0 b1 : Byte), bytes[2 * k]? = some b0 → bytes[2 * k + 1]? = some b1 →
        (s.mem.read (BitVec.ofNat 16 k)).toNat =
          match order with
          | .little => b0.toNat + 256 * b1.toNat
          | .big => 256 * b0.toNat + b1.toNat
end

