-- ==== Sys2Proof/Laws/Decode.lean ====
section
/-! SUPPORT. OPCODE_MAP and the decoder: one lemma per opcode, and the decoder's terms are well formed. -/

namespace Sys2Proof

/-- OPCODE_MAP and its inverse (R58, R72). -/
theorem Config.mnemonicOf_eq_some {op : BitVec 4} {m : Mnemonic} :
    Config.mnemonicOf op = some m ↔ Config.opcodeMap m = op := by
  revert op; cases m <;> decide

/-- The opcodes with no mnemonic (R59). -/
theorem Config.mnemonicOf_eq_none {op : BitVec 4} :
    Config.mnemonicOf op = none ↔ op = 0x4#4 ∨ op = 0x8#4 ∨ op = 0xD#4 := by
  revert op; decide

/-- A word with a mnemonic's opcode decodes by that mnemonic's fields. -/
theorem decode_of_opcode {w : Word} (m : Mnemonic) (h : opcodeField w = Config.opcodeMap m) :
    decode w = decodeAs m w := by
  simp [decode, Config.mnemonicOf_eq_some.mpr h.symm]

/-- A word with an unassigned opcode decodes to its illegal term. -/
theorem decode_of_unassigned {w : Word} (h : Config.mnemonicOf (opcodeField w) = none) :
    decode w = decodeIllegal (opcodeField w) := by
  simp [decode, h]

/-- Every word has a mnemonic's opcode or an unassigned one. -/
theorem opcode_cases (w : Word) :
    (∃ m, opcodeField w = Config.opcodeMap m) ∨ Config.mnemonicOf (opcodeField w) = none := by
  cases h : Config.mnemonicOf (opcodeField w) with
  | none => exact .inr rfl
  | some m => exact .inl ⟨m, (Config.mnemonicOf_eq_some.mp h).symm⟩

/-- The plain TRAP term is answered only for a vector with no constructor of its own. -/
theorem decodeTrap_wf (v : BitVec 8) : (decodeTrap v).wf = true := by
  revert v; decide

/-- Every term the decoder answers is well formed. -/
theorem decode_wf (w : Word) : (decode w).wf = true := by
  rcases opcode_cases w with ⟨m, h⟩ | h
  · rw [decode_of_opcode m h]
    cases m
    case add => simp only [decodeAs]; split <;> rfl
    case and => simp only [decodeAs]; split <;> rfl
    case trap => exact decodeTrap_wf _
    all_goals rfl
  · rw [decode_of_unassigned h]
    unfold decodeIllegal
    split
    · rfl
    · split <;> rfl

/-! ## The fields as numbers: `v[hi:lo]` is `v / 2^lo % 2^(hi-lo+1)` (R8) -/

theorem toNat_opcodeField (w : Word) : (opcodeField w).toNat = w.toNat / 4096 := by
  have := w.isLt
  simp [opcodeField, BitVec.extractLsb'_toNat, Nat.shiftRight_eq_div_pow]
  omega

theorem toNat_trapvect8Field (w : Word) : (trapvect8Field w).toNat = w.toNat % 256 := by
  simp [trapvect8Field, BitVec.extractLsb'_toNat]

theorem val_regField (w : Word) (lo : Nat) : (regField w lo).val = w.toNat / 2 ^ lo % 8 := by
  simp [regField, Nat.shiftRight_eq_div_pow]

theorem toNat_imm5Field (w : Word) : (imm5Field w).toNat = w.toNat % 32 := by
  simp [imm5Field, BitVec.extractLsb'_toNat]

theorem toNat_offset6Field (w : Word) : (offset6Field w).toNat = w.toNat % 64 := by
  simp [offset6Field, BitVec.extractLsb'_toNat]

theorem toNat_offset9Field (w : Word) : (offset9Field w).toNat = w.toNat % 512 := by
  simp [offset9Field, BitVec.extractLsb'_toNat]

theorem getLsbD_eq_decide (w : Word) (k : Nat) : w.getLsbD k = decide (w.toNat / 2 ^ k % 2 = 1) := by
  rw [BitVec.getLsbD, Nat.testBit_eq_decide_div_mod_eq]

/-- A word's opcode is a mnemonic's where its bits 15:12, as a number, are. -/
theorem opcodeField_eq_iff (w : Word) (op : BitVec 4) : opcodeField w = op ↔ w.toNat / 4096 = op.toNat := by
  rw [← toNat_opcodeField, BitVec.toNat_eq]

end Sys2Proof
end

