-- ==== Sys2Proof/Laws/Encode.lean ====
section
/-! SUPPORT. The encoder's checks: when each passes, and that a term's own fields always pass. -/

namespace Sys2Proof

theorem checkReg_ok_iff {r v : Int} : checkReg r = .ok v ↔ (0 ≤ r ∧ r ≤ 7) ∧ r = v := by
  unfold checkReg; split <;> simp_all

theorem checkSigned_ok_iff {x v : Int} {N : Nat} :
    checkSigned x N = .ok v ↔ (-(2 ^ (N - 1)) ≤ x ∧ x ≤ 2 ^ (N - 1) - 1) ∧ x = v := by
  unfold checkSigned; split <;> simp_all

theorem checkVect_ok_iff {x v : Int} : checkVect x = .ok v ↔ (x = 0x21 ∨ x = 0x23 ∨ x = 0x25) ∧ x = v := by
  unfold checkVect; split <;> simp_all

/-- A register index always passes its check. -/
@[simp] theorem checkReg_val (r : RegIdx) : checkReg (r.val : Int) = .ok r.val := by
  rw [checkReg_ok_iff]; omega

/-- The signed value of an N-bit field always passes its check. -/
theorem checkSigned_toInt {N : Nat} (f : BitVec N) : checkSigned f.toInt N = .ok f.toInt := by
  rw [checkSigned_ok_iff]
  have h1 := BitVec.le_toInt f
  have h2 := BitVec.toInt_lt (x := f)
  exact ⟨⟨h1, by omega⟩, rfl⟩

@[simp] theorem checkSigned_toInt5 (f : BitVec 5) : checkSigned f.toInt 5 = .ok f.toInt := checkSigned_toInt f
@[simp] theorem checkSigned_toInt6 (f : BitVec 6) : checkSigned f.toInt 6 = .ok f.toInt := checkSigned_toInt f
@[simp] theorem checkSigned_toInt9 (f : BitVec 9) : checkSigned f.toInt 9 = .ok f.toInt := checkSigned_toInt f

/-- Packing the signed value of a field gives the field's bits (R68). -/
@[simp] theorem pack_toInt {N : Nat} (f : BitVec N) : pack f.toInt N = f.setWidth 16 := by
  simp [pack]

/-- A register index placed in the word is its three bits. -/
theorem place_val (r : RegIdx) (lo : Nat) : place (r.val : Int) lo = (BitVec.ofNat 16 r.val) <<< lo := rfl

end Sys2Proof
end

