-- ==== Sys2Proof/Laws/Memory.lean ====
section
/-! SUPPORT. Memory: reads after writes, the canonical form, and that it makes equal memories equal lists. -/

namespace Sys2Proof.Machine.Memory

/-! ## Reads after writes, in every memory -/

@[simp] theorem readByte_nil (a : Nat) : readByte [] a = Config.unlistedByte := rfl

theorem readByte_eraseByte (m : Memory) (a b : Nat) :
    (eraseByte m a).readByte b = if b = a then Config.unlistedByte else m.readByte b := by
  induction m with
  | nil => simp [eraseByte]
  | cons c m ih =>
    obtain ⟨k, v⟩ := c
    simp only [eraseByte]
    split
    · subst k; rw [ih]; simp only [readByte]; split <;> simp_all [eq_comm]
    · simp only [readByte, ih]; split <;> simp_all

theorem readByte_insertByte (m : Memory) (a b : Nat) (v : Byte) :
    (insertByte m a v).readByte b = if b = a then v else m.readByte b := by
  induction m with
  | nil => simp [insertByte, readByte, eq_comm]
  | cons c m ih =>
    obtain ⟨k, u⟩ := c
    simp only [insertByte]
    split
    · simp only [readByte, ih]; split <;> split <;> simp_all
    · simp only [readByte, eq_comm]

theorem readByte_writeByte (m : Memory) (a b : Nat) (v : Byte) :
    (writeByte m a v).readByte b = if b = a then v else m.readByte b := by
  unfold writeByte
  split
  · next h => rw [readByte_eraseByte, h]
  · rw [readByte_insertByte, readByte_eraseByte]; split <;> simp_all

/-- A cell write changes the two bytes of its cell and no other. -/
theorem readByte_write (m : Memory) (a v : Word) (b : Nat) :
    (m.write a v).readByte b =
      if b = 2 * a.toNat + 1 then highHalf v else if b = 2 * a.toNat then lowHalf v else m.readByte b := by
  simp only [write, readByte_writeByte]

theorem readByte_write_of_ne (m : Memory) (a v : Word) (b : Nat) (h0 : b ≠ 2 * a.toNat) (h1 : b ≠ 2 * a.toNat + 1) :
    (m.write a v).readByte b = m.readByte b := by
  simp [readByte_write, h0, h1]

@[simp] theorem wordOfHalves_halves (v : Word) : wordOfHalves (highHalf v) (lowHalf v) = v := by
  apply BitVec.eq_of_getLsbD_eq
  intro i hi
  by_cases h : i < 8
  · simp [wordOfHalves, highHalf, lowHalf, h, hi]
  · have h1 : i - 8 < 8 := by omega
    have h2 : 8 + (i - 8) = i := by omega
    simp [wordOfHalves, highHalf, lowHalf, h, h1, h2, hi]

@[simp] theorem highHalf_wordOfHalves (h l : Byte) : highHalf (wordOfHalves h l) = h := by
  apply BitVec.eq_of_getLsbD_eq
  intro i hi
  have h1 : 8 + i < 16 := by omega
  simp [wordOfHalves, highHalf, hi, h1]

@[simp] theorem lowHalf_wordOfHalves (h l : Byte) : lowHalf (wordOfHalves h l) = l := by
  apply BitVec.eq_of_getLsbD_eq
  intro i hi
  have h1 : i < 16 := by omega
  simp [wordOfHalves, lowHalf, hi, h1]

@[simp] theorem read_write_same (m : Memory) (a v : Word) : (m.write a v).read a = v := by
  simp only [read, readByte_write, if_true]
  rw [if_neg (by omega), wordOfHalves_halves]

theorem read_write_of_ne (m : Memory) {a b : Word} (v : Word) (h : b ≠ a) : (m.write a v).read b = m.read b := by
  have hn : b.toNat ≠ a.toNat := fun e => h (BitVec.eq_of_toNat_eq e)
  unfold read
  rw [readByte_write_of_ne _ _ _ _ (by omega) (by omega), readByte_write_of_ne _ _ _ _ (by omega) (by omega)]

/-! ## The canonical form -/

theorem wfFrom_mono {lo lo' : Nat} {m : Memory} (h : wfFrom lo m = true) (hle : lo' ≤ lo) : wfFrom lo' m = true := by
  cases m with
  | nil => rfl
  | cons c m => obtain ⟨k, v⟩ := c; simp_all [wfFrom]; omega

theorem wfFrom_eraseByte {lo : Nat} {m : Memory} (a : Nat) (h : wfFrom lo m = true) : wfFrom lo (eraseByte m a) = true := by
  induction m generalizing lo with
  | nil => rfl
  | cons c m ih =>
    obtain ⟨k, v⟩ := c
    simp only [wfFrom, Bool.and_eq_true, decide_eq_true_eq] at h
    simp only [eraseByte]
    split
    · exact ih (wfFrom_mono h.2 (by omega))
    · simp only [wfFrom, Bool.and_eq_true, decide_eq_true_eq]
      exact ⟨h.1, ih h.2⟩

theorem ne_of_mem_eraseByte {m : Memory} {a : Nat} {c : Host.Cell} (h : c ∈ eraseByte m a) : c.1 ≠ a := by
  induction m with
  | nil => simp [eraseByte] at h
  | cons d m ih =>
    obtain ⟨k, v⟩ := d
    simp only [eraseByte] at h
    split at h
    · exact ih h
    · next hk => rcases List.mem_cons.mp h with rfl | h
                 · exact hk
                 · exact ih h

theorem wfFrom_insertByte {lo : Nat} {m : Memory} {a : Nat} {v : Byte} (h : wfFrom lo m = true) (hlo : lo ≤ a)
    (ha : a < Config.imageBytes) (hv : v ≠ Config.unlistedByte) (hm : ∀ c ∈ m, c.1 ≠ a) :
    wfFrom lo (insertByte m a v) = true := by
  induction m generalizing lo with
  | nil => simp [insertByte, wfFrom, *]
  | cons c m ih =>
    obtain ⟨k, u⟩ := c
    have hka : k ≠ a := hm (k, u) (by simp)
    simp only [wfFrom, Bool.and_eq_true, decide_eq_true_eq] at h
    simp only [insertByte]
    split
    · simp only [wfFrom, Bool.and_eq_true, decide_eq_true_eq]
      exact ⟨h.1, ih h.2 (by omega) fun c hc => hm c (by simp [hc])⟩
    · simp only [wfFrom, Bool.and_eq_true, decide_eq_true_eq, bne_iff_ne]
      exact ⟨⟨⟨hlo, ha⟩, hv⟩, ⟨⟨⟨by omega, h.1.1.2⟩, by simpa using h.1.2⟩, h.2⟩⟩

theorem wf_writeByte {m : Memory} {a : Nat} (v : Byte) (h : m.wf = true) (ha : a < Config.imageBytes) :
    (m.writeByte a v).wf = true := by
  unfold writeByte
  split
  · exact wfFrom_eraseByte a h
  · next hv => exact wfFrom_insertByte (wfFrom_eraseByte a h) (Nat.zero_le a) ha hv fun _ hc => ne_of_mem_eraseByte hc

/-- A cell write keeps the canonical form. -/
theorem wf_write {m : Memory} (a v : Word) (h : m.wf = true) : (m.write a v).wf = true := by
  have ha : a.toNat < 65536 := a.isLt
  exact wf_writeByte _ (wf_writeByte _ h (by unfold Config.imageBytes; omega)) (by unfold Config.imageBytes; omega)

theorem wf_nil : wf [] = true := rfl

theorem readByte_of_lt {lo : Nat} {m : Memory} (h : wfFrom lo m = true) {b : Nat} (hb : b < lo) :
    m.readByte b = Config.unlistedByte := by
  induction m generalizing lo with
  | nil => rfl
  | cons c m ih =>
    obtain ⟨k, v⟩ := c
    simp only [wfFrom, Bool.and_eq_true, decide_eq_true_eq] at h
    have : ¬ k = b := by omega
    simp only [readByte, this, if_false]
    exact ih h.2 (by omega)

/-- Memories in canonical form that read alike are the same list. -/
theorem ext_of_wfFrom {lo : Nat} {m m' : Memory} (h : wfFrom lo m = true) (h' : wfFrom lo m' = true)
    (hr : ∀ b, m.readByte b = m'.readByte b) : m = m' := by
  induction m generalizing lo m' with
  | nil =>
    cases m' with
    | nil => rfl
    | cons c m' =>
      obtain ⟨k, v⟩ := c
      simp only [wfFrom, Bool.and_eq_true, bne_iff_ne] at h'
      exact absurd (hr k).symm (by simpa [readByte] using h'.1.2)
  | cons c m ih =>
    obtain ⟨k, v⟩ := c
    simp only [wfFrom, Bool.and_eq_true, decide_eq_true_eq, bne_iff_ne] at h
    cases m' with
    | nil => exact absurd (hr k) (by simpa [readByte] using h.1.2)
    | cons c' m' =>
      obtain ⟨k', v'⟩ := c'
      simp only [wfFrom, Bool.and_eq_true, decide_eq_true_eq, bne_iff_ne] at h'
      have hk : k = k' := by
        rcases Nat.lt_trichotomy k k' with hlt | he | hgt
        · have := hr k
          rw [readByte_of_lt (lo := k + 1) (m := (k', v') :: m')
            (by simp only [wfFrom, Bool.and_eq_true, decide_eq_true_eq, bne_iff_ne]
                exact ⟨⟨⟨hlt, h'.1.1.2⟩, h'.1.2⟩, h'.2⟩) (by omega)] at this
          simp [readByte] at this
          exact absurd this h.1.2
        · exact he
        · have := hr k'
          rw [readByte_of_lt (lo := k' + 1) (m := (k, v) :: m)
            (by simp only [wfFrom, Bool.and_eq_true, decide_eq_true_eq, bne_iff_ne]
                exact ⟨⟨⟨hgt, h.1.1.2⟩, h.1.2⟩, h.2⟩) (by omega)] at this
          simp [readByte] at this
          exact absurd this.symm h'.1.2
      subst hk
      have hv : v = v' := by simpa [readByte] using hr k
      subst hv
      rw [ih h.2 h'.2 fun b => ?_]
      by_cases hb : b < k + 1
      · rw [readByte_of_lt h.2 hb, readByte_of_lt h'.2 hb]
      · have := hr b
        have hkb : ¬ k = b := by omega
        simpa [readByte, hkb] using this

theorem ext_of_wf {m m' : Memory} (h : m.wf = true) (h' : m'.wf = true) (hr : ∀ b, m.readByte b = m'.readByte b) :
    m = m' := ext_of_wfFrom h h' hr

/-- Past the address space nothing is listed. -/
theorem readByte_of_ge {lo : Nat} {m : Memory} (h : wfFrom lo m = true) {b : Nat} (hb : Config.imageBytes ≤ b) :
    m.readByte b = Config.unlistedByte := by
  induction m generalizing lo with
  | nil => rfl
  | cons c m ih =>
    obtain ⟨k, v⟩ := c
    simp only [wfFrom, Bool.and_eq_true, decide_eq_true_eq] at h
    have : ¬ k = b := by omega
    simp only [readByte, this, if_false]
    exact ih h.2

end Sys2Proof.Machine.Memory
end

