-- ==== Sys2Proof/Laws/State.lean ====
section
/-! SUPPORT. What each update does to each field of the state. -/

namespace Sys2Proof.Machine.State

variable (s : State) (i : RegIdx) (v a : Word) (b : Byte)

@[simp] theorem setReg_pc : (s.setReg i v).pc = s.pc := rfl
@[simp] theorem setReg_cc : (s.setReg i v).cc = s.cc := rfl
@[simp] theorem setReg_halted : (s.setReg i v).halted = s.halted := rfl
@[simp] theorem setReg_mem : (s.setReg i v).mem = s.mem := rfl
@[simp] theorem setReg_out : (s.setReg i v).out = s.out := rfl
@[simp] theorem setReg_input : (s.setReg i v).input = s.input := rfl

@[simp] theorem setPc_x : (s.setPc v).x = s.x := rfl
@[simp] theorem setPc_pc : (s.setPc v).pc = v := rfl
@[simp] theorem setPc_cc : (s.setPc v).cc = s.cc := rfl
@[simp] theorem setPc_halted : (s.setPc v).halted = s.halted := rfl
@[simp] theorem setPc_mem : (s.setPc v).mem = s.mem := rfl
@[simp] theorem setPc_out : (s.setPc v).out = s.out := rfl
@[simp] theorem setPc_input : (s.setPc v).input = s.input := rfl
@[simp] theorem setPc_reg : (s.setPc v).reg i = s.reg i := rfl

@[simp] theorem setPc_setPc : (s.setPc v).setPc a = s.setPc a := rfl

@[simp] theorem store_x : (s.store a v).x = s.x := rfl
@[simp] theorem store_pc : (s.store a v).pc = s.pc := rfl
@[simp] theorem store_cc : (s.store a v).cc = s.cc := rfl
@[simp] theorem store_halted : (s.store a v).halted = s.halted := rfl
@[simp] theorem store_mem : (s.store a v).mem = s.mem.write a v := rfl
@[simp] theorem store_out : (s.store a v).out = s.out := rfl
@[simp] theorem store_input : (s.store a v).input = s.input := rfl
@[simp] theorem store_reg : (s.store a v).reg i = s.reg i := rfl

@[simp] theorem consoleOut_x : (s.consoleOut b).x = s.x := rfl
@[simp] theorem consoleOut_pc : (s.consoleOut b).pc = s.pc := rfl
@[simp] theorem consoleOut_cc : (s.consoleOut b).cc = s.cc := rfl
@[simp] theorem consoleOut_halted : (s.consoleOut b).halted = s.halted := rfl
@[simp] theorem consoleOut_mem : (s.consoleOut b).mem = s.mem := rfl
@[simp] theorem consoleOut_out : (s.consoleOut b).out = s.out ++ [b] := rfl
@[simp] theorem consoleOut_input : (s.consoleOut b).input = s.input := rfl
@[simp] theorem consoleOut_reg : (s.consoleOut b).reg i = s.reg i := rfl

/-- A register reads what was last written to it, whichever registers the writes in between name. -/
theorem reg_setReg (q : RegIdx) : (s.setReg i v).reg q = if q = i then v else s.reg q := by
  simp only [reg, setReg, Fin.getElem_fin, Vector.getElem_set]
  simp [Fin.ext_iff, eq_comm]

@[simp] theorem reg_setReg_same : (s.setReg i v).reg i = v := by simp [reg_setReg]

theorem reg_setReg_of_ne {q : RegIdx} (h : q ≠ i) : (s.setReg i v).reg q = s.reg q := by simp [reg_setReg, h]

@[simp] theorem reset_reg : State.reset.reg i = Config.gprReset := by
  simp [reg, reset]

end Sys2Proof.Machine.State
end

