-- ==== Sys2Proof/Laws/Ops.lean ====
section
/-! SUPPORT. What each shared operation can do, said once. -/

namespace Sys2Proof.Machine

/-- From any pc but 0xFFFF the advance goes on with the rest. -/
theorem incPC_of_ne {s : State} (rest : State → Result) (h : s.pc ≠ 0xFFFF#16) :
    incPC s rest = rest (s.setPc (s.pc + 1#16)) := by
  simp [incPC, h]

/-- From 0xFFFF the advance is fatal. -/
theorem incPC_of_top {s : State} (rest : State → Result) (h : s.pc = 0xFFFF#16) :
    incPC s rest = .fault (.pcOverflow s.pc s.out) := by
  simp [incPC, h, raise]

/-- All that an advance answering a next state can have done. -/
theorem incPC_eq_next {s t : State} {rest : State → Result} (h : incPC s rest = .next t) :
    s.pc ≠ 0xFFFF#16 ∧ rest (s.setPc (s.pc + 1#16)) = .next t := by
  unfold incPC at h
  split at h
  · cases h
  · next hne => exact ⟨hne, h⟩

/-- All that an advance answering a fault can have done. -/
theorem incPC_eq_fault {s : State} {rest : State → Result} {f : Fault} (h : incPC s rest = .fault f) :
    (s.pc = 0xFFFF#16 ∧ f = .pcOverflow s.pc s.out) ∨
      (s.pc ≠ 0xFFFF#16 ∧ rest (s.setPc (s.pc + 1#16)) = .fault f) := by
  unfold incPC at h
  split at h
  · next he => cases h; exact .inl ⟨he, rfl⟩
  · next hne => exact .inr ⟨hne, h⟩

/-- Raising an error answers that fault, with the output so far. -/
@[simp] theorem raise_eq (E : List Byte → Fault) (s : State) : raise E s = .fault (E s.out) := rfl

/-- A stream with no value up to 255 gives no byte. -/
theorem takeByte_eq_none {l : List Nat} : takeByte l = none ↔ ∀ c ∈ l, 255 < c := by
  induction l with
  | nil => simp [takeByte]
  | cons c l ih =>
    simp only [takeByte]
    split
    · next h => simp; omega
    · next h => simp [ih]; omega

/-- The byte a stream gives is its first value up to 255, and the rest is what follows it. -/
theorem takeByte_skip (sentinels : List Nat) (hs : ∀ c ∈ sentinels, 255 < c) (c : Nat) (hc : c ≤ 255) (rest : List Nat) :
    takeByte (sentinels ++ c :: rest) = some (BitVec.ofNat 8 c, rest) := by
  induction sentinels with
  | nil => simp [takeByte, hc]
  | cons d l ih =>
    have hd : ¬ d ≤ 255 := by have := hs d (by simp); omega
    simp only [List.cons_append, takeByte, hd, if_false]
    exact ih fun c hc => hs c (by simp [hc])

/-- Sign extension to 16 bits is the signed value modulo 2^16 (R9). -/
theorem sext16_eq_ofInt {N : Nat} (f : BitVec N) : sext16 f = BitVec.ofInt 16 f.toInt := rfl

/-- R9's words for sign extension and the two's-complement reading of a field agree. -/
theorem sextInt_toNat {N : Nat} (h : 0 < N) (f : BitVec N) : sextInt N f.toNat = f.toInt := by
  have hb : f.toNat.testBit (N - 1) = f.msb := by
    rw [BitVec.msb_eq_getLsbD_last, BitVec.getLsbD]
  have h2 : 2 ^ N = 2 * 2 ^ (N - 1) := by rw [← pow_succ']; congr 1; omega
  unfold sextInt
  rw [hb, BitVec.msb_eq_decide, BitVec.toInt_eq_toNat_cond]
  by_cases hm : 2 ^ (N - 1) ≤ f.toNat
  · simp only [hm, decide_true, if_true]; rw [if_neg (by omega)]; push_cast; rfl
  · simp only [hm, decide_false, Bool.false_eq_true, if_false]; rw [if_pos (by omega)]

theorem sext16_eq_sextInt {N : Nat} (h : 0 < N) (f : BitVec N) : sext16 f = BitVec.ofInt 16 (sextInt N f.toNat) := by
  rw [sextInt_toNat h, sext16_eq_ofInt]

/-- A sum with an integer operand is the sum modulo 2^16. -/
theorem toNat_add_ofInt (a : Word) (v : Int) : ((a + BitVec.ofInt 16 v).toNat : Int) = (a.toNat + v) % 65536 := by
  simp [BitVec.toNat_add, BitVec.toNat_ofInt]
  omega

/-- Below the top the advanced pc is one more, with no wrap. -/
theorem toNat_pc_succ {s : State} (h : s.pc ≠ 0xFFFF#16) : (s.pc + 1#16).toNat = s.pc.toNat + 1 := by
  have h1 := s.pc.isLt
  have : s.pc.toNat ≠ 65535 := fun h' => h (BitVec.eq_of_toNat_eq h')
  simp; omega

/-- The PC-relative address a handler computes, from the pc before the advance. -/
theorem pcRelative_advanced {s : State} (h : s.pc ≠ 0xFFFF#16) (off : BitVec 9) :
    pcRelative (s.setPc (s.pc + 1#16)) off = BitVec.ofInt 16 (s.pc.toNat + 1 + sextInt 9 off.toNat) := by
  unfold pcRelative
  rw [sext16_eq_sextInt (by omega)]
  apply BitVec.eq_of_toNat_eq
  have hs := toNat_add_ofInt (s.pc + 1#16) (sextInt 9 off.toNat)
  rw [toNat_pc_succ h] at hs
  apply Int.ofNat_inj.mp
  simp only [State.setPc_pc]
  rw [hs]
  simp [BitVec.toNat_ofInt]
  omega

theorem baseOffset_eq (s : State) (b : RegIdx) (off : BitVec 6) :
    baseOffset s b off = BitVec.ofInt 16 ((s.reg b).toNat + sextInt 6 off.toNat) := by
  unfold baseOffset
  rw [sext16_eq_sextInt (by omega)]
  apply BitVec.eq_of_toNat_eq
  apply Int.ofNat_inj.mp
  rw [toNat_add_ofInt]
  simp [BitVec.toNat_ofInt]
  omega

/-- A stream that gives a byte holds a value up to 255. -/
theorem takeByte_ne_none {l : List Nat} : takeByte l ≠ none ↔ ∃ v ∈ l, v ≤ 255 := by
  rw [ne_eq, takeByte_eq_none]
  push Not
  simp

theorem branchTaken_eq_true {n z p : Bool} {cc : CC} :
    branchTaken n z p cc = true ↔
      (n = true ∧ cc = .negative) ∨ (z = true ∧ cc = .zero) ∨ (p = true ∧ cc = .positive) := by
  cases cc <;> simp [branchTaken]

end Sys2Proof.Machine
end

