-- ==== Sys2Proof/Laws/Exec.lean ====
section
/-! SUPPORT. Each meaning's next state, and once for all what executing an instruction can do. -/

namespace Sys2Proof.Machine

variable {s t : State}

/-- What a handler that advances first and then writes one state answers. -/
theorem incPC_next_iff {f : State → State} :
    incPC s (fun s => .next (f s)) = .next t ↔ s.pc ≠ 0xFFFF#16 ∧ f (s.setPc (s.pc + 1#16)) = t := by
  unfold incPC
  split <;> simp_all

theorem execAddReg_next_iff {d a b : RegIdx} : execAddReg d a b s = .next t ↔
    s.pc ≠ 0xFFFF#16 ∧ (s.setPc (s.pc + 1#16)).setReg d (s.reg a + s.reg b) = t := by
  simp [execAddReg, incPC_next_iff]

theorem execAddImm_next_iff {d a : RegIdx} {imm : BitVec 5} : execAddImm d a imm s = .next t ↔
    s.pc ≠ 0xFFFF#16 ∧ (s.setPc (s.pc + 1#16)).setReg d (s.reg a + sext16 imm) = t := by
  simp [execAddImm, incPC_next_iff]

theorem execAndReg_next_iff {d a b : RegIdx} : execAndReg d a b s = .next t ↔
    s.pc ≠ 0xFFFF#16 ∧ (s.setPc (s.pc + 1#16)).setReg d (s.reg a &&& s.reg b) = t := by
  simp [execAndReg, incPC_next_iff]

theorem execAndImm_next_iff {d a : RegIdx} {imm : BitVec 5} : execAndImm d a imm s = .next t ↔
    s.pc ≠ 0xFFFF#16 ∧ (s.setPc (s.pc + 1#16)).setReg d (s.reg a &&& sext16 imm) = t := by
  simp [execAndImm, incPC_next_iff]

theorem execNot_next_iff {d a : RegIdx} : execNot d a s = .next t ↔
    s.pc ≠ 0xFFFF#16 ∧ (s.setPc (s.pc + 1#16)).setReg d (~~~(s.reg a)) = t := by
  simp [execNot, incPC_next_iff]

theorem execLd_next_iff {d : RegIdx} {off : BitVec 9} : execLd d off s = .next t ↔
    s.pc ≠ 0xFFFF#16 ∧
      (s.setPc (s.pc + 1#16)).setReg d (s.mem.read (pcRelative (s.setPc (s.pc + 1#16)) off)) = t := by
  simp [execLd, incPC_next_iff]

theorem execSt_next_iff {r : RegIdx} {off : BitVec 9} : execSt r off s = .next t ↔
    s.pc ≠ 0xFFFF#16 ∧
      (s.setPc (s.pc + 1#16)).store (pcRelative (s.setPc (s.pc + 1#16)) off) (s.reg r) = t := by
  simp [execSt, incPC_next_iff]

theorem execLdr_next_iff {d b : RegIdx} {off : BitVec 6} : execLdr d b off s = .next t ↔
    s.pc ≠ 0xFFFF#16 ∧ (s.setPc (s.pc + 1#16)).setReg d (s.mem.read (baseOffset s b off)) = t := by
  simp [execLdr, incPC_next_iff, baseOffset]

theorem execStr_next_iff {r b : RegIdx} {off : BitVec 6} : execStr r b off s = .next t ↔
    s.pc ≠ 0xFFFF#16 ∧ (s.setPc (s.pc + 1#16)).store (strAddress s b off) (s.reg r) = t := by
  simp [execStr, incPC_next_iff, strAddress]

theorem execLea_next_iff {d : RegIdx} {off : BitVec 9} : execLea d off s = .next t ↔
    s.pc ≠ 0xFFFF#16 ∧ (s.setPc (s.pc + 1#16)).setReg d (pcRelative (s.setPc (s.pc + 1#16)) off) = t := by
  simp [execLea, incPC_next_iff]

theorem execBr_next_iff {n z p : Bool} {off : BitVec 9} : execBr n z p off s = .next t ↔
    s.pc ≠ 0xFFFF#16 ∧
      s.setPc (if branchTaken n z p s.cc then pcRelative (s.setPc (s.pc + 1#16)) off else s.pc + 1#16) = t := by
  rw [execBr, incPC_next_iff]
  by_cases hb : branchTaken n z p s.cc = true <;> simp [hb]

theorem execJmp_next_iff {b : RegIdx} : execJmp b s = .next t ↔ s.setPc (s.reg b) = t := by simp [execJmp]

theorem serviceOut_next_iff : serviceOut s = .next t ↔
    s.pc ≠ 0xFFFF#16 ∧ (s.consoleOut (lowHalf (s.reg 0))).setPc (s.pc + 1#16) = t := by
  have h := incPC_next_iff (s := s.consoleOut (lowHalf (s.reg 0))) (t := t) (f := id)
  simpa [serviceOut] using h

theorem serviceGetc_next_iff : serviceGetc s = .next t ↔
    ∃ c rest, takeByte s.input = some (c, rest) ∧ s.pc ≠ 0xFFFF#16 ∧
      ({ s with input := rest }.setReg 0 (zext16 c)).setPc (s.pc + 1#16) = t := by
  unfold serviceGetc
  cases h : takeByte s.input with
  | none => simp
  | some p =>
    obtain ⟨c, rest⟩ := p
    have := incPC_next_iff (s := { s with input := rest }.setReg 0 (zext16 c)) (t := t) (f := id)
    simpa using this

theorem serviceHalt_next_iff : serviceHalt s = .next t ↔ { s with halted := true } = t := by simp [serviceHalt]

/-- Every way in which executing an instruction can answer a next state. -/
theorem exec_next_cases {i : Instr} (h : exec i s = .next t) :
    (∃ d v, s.pc ≠ 0xFFFF#16 ∧ t = (s.setPc (s.pc + 1#16)).setReg d v) ∨
    (∃ a v, s.pc ≠ 0xFFFF#16 ∧ t = (s.setPc (s.pc + 1#16)).store a v) ∨
    (∃ target, t = s.setPc target) ∨
    (s.pc ≠ 0xFFFF#16 ∧ t = (s.consoleOut (lowHalf (s.reg 0))).setPc (s.pc + 1#16)) ∨
    (∃ c rest, takeByte s.input = some (c, rest) ∧ s.pc ≠ 0xFFFF#16 ∧
      t = ({ s with input := rest }.setReg 0 (zext16 c)).setPc (s.pc + 1#16)) ∨
    t = { s with halted := true } := by
  have out : serviceOut s = .next t → _ := fun h => (serviceOut_next_iff.mp h)
  have getc : serviceGetc s = .next t → _ := fun h => (serviceGetc_next_iff.mp h)
  have halt : serviceHalt s = .next t → _ := fun h => (serviceHalt_next_iff.mp h)
  cases i with
  | br n z p off => exact .inr <| .inr <| .inl ⟨_, (execBr_next_iff.mp h).2.symm⟩
  | addReg d a b => have := execAddReg_next_iff.mp h; exact .inl ⟨_, _, this.1, this.2.symm⟩
  | addImm d a imm => have := execAddImm_next_iff.mp h; exact .inl ⟨_, _, this.1, this.2.symm⟩
  | ld d off => have := execLd_next_iff.mp h; exact .inl ⟨_, _, this.1, this.2.symm⟩
  | st r off => have := execSt_next_iff.mp h; exact .inr <| .inl ⟨_, _, this.1, this.2.symm⟩
  | andReg d a b => have := execAndReg_next_iff.mp h; exact .inl ⟨_, _, this.1, this.2.symm⟩
  | andImm d a imm => have := execAndImm_next_iff.mp h; exact .inl ⟨_, _, this.1, this.2.symm⟩
  | ldr d b off => have := execLdr_next_iff.mp h; exact .inl ⟨_, _, this.1, this.2.symm⟩
  | str r b off => have := execStr_next_iff.mp h; exact .inr <| .inl ⟨_, _, this.1, this.2.symm⟩
  | notReg d a => have := execNot_next_iff.mp h; exact .inl ⟨_, _, this.1, this.2.symm⟩
  | ldi d off => cases h
  | sti r off => cases h
  | jmp b => exact .inr <| .inr <| .inl ⟨_, (execJmp_next_iff.mp h).symm⟩
  | lea d off => have := execLea_next_iff.mp h; exact .inl ⟨_, _, this.1, this.2.symm⟩
  | trap v =>
    change execTrap v s = .next t at h
    unfold execTrap at h
    split at h
    · exact .inr <| .inr <| .inr <| .inl ⟨(out h).1, (out h).2.symm⟩
    · split at h
      · obtain ⟨c, rest, h1, h2, h3⟩ := getc h
        exact .inr <| .inr <| .inr <| .inr <| .inl ⟨c, rest, h1, h2, h3.symm⟩
      · split at h
        · exact .inr <| .inr <| .inr <| .inr <| .inr (halt h).symm
        · cases h
  | trapOut => exact .inr <| .inr <| .inr <| .inl ⟨(out h).1, (out h).2.symm⟩
  | trapGetc =>
    obtain ⟨c, rest, h1, h2, h3⟩ := getc h
    exact .inr <| .inr <| .inr <| .inr <| .inl ⟨c, rest, h1, h2, h3.symm⟩
  | trapHalt => exact .inr <| .inr <| .inr <| .inr <| .inr (halt h).symm
  | illegal4 => cases h
  | illegal8 => cases h
  | illegalD => cases h

/-- A handler that advances first does nothing else that could stop it: after the advance it answers one state (R89). -/
theorem exec_of_advancesFirst {i : Instr} (h : advancesFirst i = true) :
    ∃ f : State → State, ∀ s, exec i s = incPC s fun s => .next (f s) := by
  cases i with
  | addReg d a b => exact ⟨fun s => s.setReg d (s.reg a + s.reg b), fun _ => rfl⟩
  | addImm d a imm => exact ⟨fun s => s.setReg d (s.reg a + sext16 imm), fun _ => rfl⟩
  | andReg d a b => exact ⟨fun s => s.setReg d (s.reg a &&& s.reg b), fun _ => rfl⟩
  | andImm d a imm => exact ⟨fun s => s.setReg d (s.reg a &&& sext16 imm), fun _ => rfl⟩
  | notReg d a => exact ⟨fun s => s.setReg d (~~~(s.reg a)), fun _ => rfl⟩
  | ld d off => exact ⟨fun s => s.setReg d (s.mem.read (pcRelative s off)), fun _ => rfl⟩
  | st r off => exact ⟨fun s => s.store (pcRelative s off) (s.reg r), fun _ => rfl⟩
  | ldr d b off => exact ⟨fun s => s.setReg d (s.mem.read (baseOffset s b off)), fun _ => rfl⟩
  | str r b off => exact ⟨fun s => s.store (strAddress s b off) (s.reg r), fun _ => rfl⟩
  | lea d off => exact ⟨fun s => s.setReg d (pcRelative s off), fun _ => rfl⟩
  | br n z p off => exact ⟨fun s => if branchTaken n z p s.cc then s.setPc (pcRelative s off) else s, fun _ => rfl⟩
  | ldi | sti | jmp | trap | trapOut | trapGetc | trapHalt | illegal4 | illegal8 | illegalD => cases h

theorem serviceOut_fault_iff {f : Fault} : serviceOut s = .fault f ↔
    s.pc = 0xFFFF#16 ∧ f = .pcOverflow s.pc (s.out ++ [lowHalf (s.reg 0)]) := by
  unfold serviceOut incPC
  split <;> simp_all [eq_comm]

theorem serviceGetc_fault_iff {f : Fault} : serviceGetc s = .fault f ↔
    takeByte s.input ≠ none ∧ s.pc = 0xFFFF#16 ∧ f = .pcOverflow s.pc s.out := by
  unfold serviceGetc
  cases takeByte s.input with
  | none => simp
  | some p =>
    obtain ⟨c, rest⟩ := p
    simp only [incPC]
    split <;> simp_all [eq_comm]

theorem serviceGetc_refused_iff {r : Refusal} : serviceGetc s = .refused r ↔
    takeByte s.input = none ∧ r = .awaitingInput := by
  unfold serviceGetc
  cases takeByte s.input with
  | none => simp [eq_comm]
  | some p =>
    obtain ⟨c, rest⟩ := p
    simp only [incPC]
    split <;> simp

theorem serviceOut_not_refused {r : Refusal} : serviceOut s ≠ .refused r := by
  unfold serviceOut incPC
  split <;> simp

theorem exec_advancesFirst_not_refused {i : Instr} {r : Refusal} (h : advancesFirst i = true) :
    exec i s ≠ .refused r := by
  obtain ⟨f, hf⟩ := exec_of_advancesFirst h
  rw [hf, incPC]
  split <;> simp

/-- A handler that advances first faults exactly at the top (R90). -/
theorem exec_advancesFirst_fault_iff {i : Instr} {f : Fault} (h : advancesFirst i = true) :
    exec i s = .fault f ↔ s.pc = 0xFFFF#16 ∧ f = .pcOverflow s.pc s.out := by
  obtain ⟨g, hg⟩ := exec_of_advancesFirst h
  rw [hg, incPC]
  split
  · next hpc => simp [hpc, eq_comm]
  · next hpc => simp [hpc]

end Sys2Proof.Machine
end

