-- ==== Sys2Proof/Laws/Image.lean ====
section
/-! SUPPORT. The image file's words and the memory they fill. -/

namespace Sys2Proof.Machine

theorem wfFrom_cellOf_append {lo a : Nat} {v : Byte} {m : Memory} (hlo : lo ≤ a) (ha : a < Config.imageBytes)
    (h : Memory.wfFrom (a + 1) m = true) : Memory.wfFrom lo (cellOf a v ++ m) = true := by
  unfold cellOf
  split
  · exact Memory.wfFrom_mono h (by omega)
  · next hv => simp [Memory.wfFrom, hlo, ha, hv, h]

/-- Memory filled from words that fit the address space is in canonical form. -/
theorem wfFrom_memoryOfWords {k : Nat} {ws : List Word} (h : 2 * (k + ws.length) ≤ Config.imageBytes) :
    Memory.wfFrom (2 * k) (memoryOfWords k ws) = true := by
  induction ws generalizing k with
  | nil => rfl
  | cons w ws ih =>
    simp only [List.length_cons] at h
    have hrest := ih (k := k + 1) (by omega)
    exact wfFrom_cellOf_append (Nat.le_refl _) (by omega)
      (wfFrom_cellOf_append (by omega) (by omega) (Memory.wfFrom_mono hrest (by omega)))

theorem readByte_cellOf_append (a b : Nat) (v : Byte) (m : Memory) (hm : m.readByte a = Config.unlistedByte) :
    Memory.readByte (cellOf a v ++ m) b = if b = a then v else m.readByte b := by
  unfold cellOf
  split
  · next hv => simp only [List.nil_append]; split <;> simp_all
  · simp [Memory.readByte, eq_comm]

/-- Each byte of memory filled from words is its half of its word, and zero past the words. -/
theorem readByte_memoryOfWords {k : Nat} {ws : List Word} (h : 2 * (k + ws.length) ≤ Config.imageBytes) (j : Nat) :
    (memoryOfWords k ws).readByte (2 * (k + j)) = (if hj : j < ws.length then lowHalf ws[j] else Config.unlistedByte) ∧
    (memoryOfWords k ws).readByte (2 * (k + j) + 1) =
      (if hj : j < ws.length then highHalf ws[j] else Config.unlistedByte) := by
  induction ws generalizing k j with
  | nil => simp [memoryOfWords]
  | cons w ws ih =>
    simp only [List.length_cons] at h
    have hwf := wfFrom_memoryOfWords (k := k + 1) (ws := ws) (by omega)
    have hhi : (memoryOfWords (k + 1) ws).readByte (2 * k + 1) = Config.unlistedByte :=
      Memory.readByte_of_lt hwf (by omega)
    have hlo : (cellOf (2 * k + 1) (highHalf w) ++ memoryOfWords (k + 1) ws).readByte (2 * k) = Config.unlistedByte := by
      rw [readByte_cellOf_append _ _ _ _ hhi, if_neg (by omega)]
      exact Memory.readByte_of_lt hwf (by omega)
    simp only [memoryOfWords]
    rw [readByte_cellOf_append _ _ _ _ hlo, readByte_cellOf_append _ _ _ _ hlo,
      readByte_cellOf_append _ _ _ _ hhi, readByte_cellOf_append _ _ _ _ hhi]
    cases j with
    | zero => simp
    | succ j =>
      have := ih (k := k + 1) (by omega) j
      rw [if_neg (by omega), if_neg (by omega), if_neg (by omega), if_neg (by omega)]
      simpa [Nat.add_assoc, Nat.add_comm 1 j] using this

@[simp] theorem length_bytesOfWord (order : ByteOrder) (w : Word) : (bytesOfWord order w).length = 2 := by
  cases order <;> rfl

/-- Reading the two bytes of a word gives the word back, in either order. -/
theorem wordsOfBytes_bytesOfWord_append (order : ByteOrder) (w : Word) (rest : List Byte) :
    wordsOfBytes order (bytesOfWord order w ++ rest) = w :: wordsOfBytes order rest := by
  cases order <;> simp [bytesOfWord, wordsOfBytes, Memory.wordOfHalves_halves]

end Sys2Proof.Machine
end

