-- ==== Sys2Proof/Laws/PerInstr.lean ====
section
/-! SUPPORT. Facts about an instruction as syntax, one lemma per constructor. -/

namespace Sys2Proof.Laws

/-- Whether one of R71's functions accepts the term: every term but a TRAP with a vector that is not legal and the
illegal terms. -/
def encodable : Instr → Bool
  | .trap v => legalTrapVectors.contains v
  | .illegal4 | .illegal8 | .illegalD => false
  | .br _ _ _ _ | .addReg _ _ _ | .addImm _ _ _ | .ld _ _ | .st _ _ | .andReg _ _ _ | .andImm _ _ _ | .ldr _ _ _
  | .str _ _ _ | .notReg _ _ | .ldi _ _ | .sti _ _ | .jmp _ | .lea _ _ | .trapOut | .trapGetc | .trapHalt => true

/-- The encoder answers a word for exactly the encodable terms (R66 to R71). -/
def EncodeTotal.Statement (i : Instr) : Prop := (∃ w, encode i = .ok w) ↔ encodable i = true

theorem EncodeTotal.br (n z p : Bool) (off : BitVec 9) : EncodeTotal.Statement (.br n z p off) := by
  simp [EncodeTotal.Statement, encodable, encode, Instr.form, encodeForm, bind, Except.bind, pure, Except.pure]

theorem EncodeTotal.addReg (d a b : RegIdx) : EncodeTotal.Statement (.addReg d a b) := by
  simp [EncodeTotal.Statement, encodable, encode, Instr.form, encodeForm, bind, Except.bind, pure, Except.pure]

theorem EncodeTotal.addImm (d a : RegIdx) (imm : BitVec 5) : EncodeTotal.Statement (.addImm d a imm) := by
  simp [EncodeTotal.Statement, encodable, encode, Instr.form, encodeForm, bind, Except.bind, pure, Except.pure]

theorem EncodeTotal.ld (d : RegIdx) (off : BitVec 9) : EncodeTotal.Statement (.ld d off) := by
  simp [EncodeTotal.Statement, encodable, encode, Instr.form, encodeForm, bind, Except.bind, pure, Except.pure]

theorem EncodeTotal.st (r : RegIdx) (off : BitVec 9) : EncodeTotal.Statement (.st r off) := by
  simp [EncodeTotal.Statement, encodable, encode, Instr.form, encodeForm, bind, Except.bind, pure, Except.pure]

theorem EncodeTotal.andReg (d a b : RegIdx) : EncodeTotal.Statement (.andReg d a b) := by
  simp [EncodeTotal.Statement, encodable, encode, Instr.form, encodeForm, bind, Except.bind, pure, Except.pure]

theorem EncodeTotal.andImm (d a : RegIdx) (imm : BitVec 5) : EncodeTotal.Statement (.andImm d a imm) := by
  simp [EncodeTotal.Statement, encodable, encode, Instr.form, encodeForm, bind, Except.bind, pure, Except.pure]

theorem EncodeTotal.ldr (d b : RegIdx) (off : BitVec 6) : EncodeTotal.Statement (.ldr d b off) := by
  simp [EncodeTotal.Statement, encodable, encode, Instr.form, encodeForm, bind, Except.bind, pure, Except.pure]

theorem EncodeTotal.str (r b : RegIdx) (off : BitVec 6) : EncodeTotal.Statement (.str r b off) := by
  simp [EncodeTotal.Statement, encodable, encode, Instr.form, encodeForm, bind, Except.bind, pure, Except.pure]

theorem EncodeTotal.notReg (d a : RegIdx) : EncodeTotal.Statement (.notReg d a) := by
  simp [EncodeTotal.Statement, encodable, encode, Instr.form, encodeForm, bind, Except.bind, pure, Except.pure]

theorem EncodeTotal.ldi (d : RegIdx) (off : BitVec 9) : EncodeTotal.Statement (.ldi d off) := by
  simp [EncodeTotal.Statement, encodable, encode, Instr.form, encodeForm, bind, Except.bind, pure, Except.pure]

theorem EncodeTotal.sti (r : RegIdx) (off : BitVec 9) : EncodeTotal.Statement (.sti r off) := by
  simp [EncodeTotal.Statement, encodable, encode, Instr.form, encodeForm, bind, Except.bind, pure, Except.pure]

theorem EncodeTotal.jmp (b : RegIdx) : EncodeTotal.Statement (.jmp b) := by
  simp [EncodeTotal.Statement, encodable, encode, Instr.form, encodeForm, bind, Except.bind, pure, Except.pure]

theorem EncodeTotal.lea (d : RegIdx) (off : BitVec 9) : EncodeTotal.Statement (.lea d off) := by
  simp [EncodeTotal.Statement, encodable, encode, Instr.form, encodeForm, bind, Except.bind, pure, Except.pure]

theorem EncodeTotal.trap (v : BitVec 8) : EncodeTotal.Statement (.trap v) := by
  have key : ((v.toNat : Int) = 0x21 ∨ (v.toNat : Int) = 0x23 ∨ (v.toNat : Int) = 0x25) ↔
      (v = 0x21#8 ∨ v = 0x23#8 ∨ v = 0x25#8) := by
    simp only [BitVec.toNat_eq, BitVec.toNat_ofNat]; omega
  have hl : encodable (.trap v) = true ↔ (v = 0x21#8 ∨ v = 0x23#8 ∨ v = 0x25#8) := by
    simp [encodable, legalTrapVectors]
  unfold EncodeTotal.Statement
  rw [hl, ← key]
  simp only [encode, Instr.form, encodeForm, checkVect]
  by_cases h : (v.toNat : Int) = 0x21 ∨ (v.toNat : Int) = 0x23 ∨ (v.toNat : Int) = 0x25 <;>
    simp only [h, if_true, if_false, bind, Except.bind, pure, Except.pure] <;> simp

theorem EncodeTotal.trapOut : EncodeTotal.Statement .trapOut := ⟨fun _ => rfl, fun _ => ⟨_, rfl⟩⟩

theorem EncodeTotal.trapGetc : EncodeTotal.Statement .trapGetc := ⟨fun _ => rfl, fun _ => ⟨_, rfl⟩⟩

theorem EncodeTotal.trapHalt : EncodeTotal.Statement .trapHalt := ⟨fun _ => rfl, fun _ => ⟨_, rfl⟩⟩

theorem EncodeTotal.illegal4 : EncodeTotal.Statement .illegal4 := by
  simp [EncodeTotal.Statement, encodable, encode, Instr.form]

theorem EncodeTotal.illegal8 : EncodeTotal.Statement .illegal8 := by
  simp [EncodeTotal.Statement, encodable, encode, Instr.form]

theorem EncodeTotal.illegalD : EncodeTotal.Statement .illegalD := by
  simp [EncodeTotal.Statement, encodable, encode, Instr.form]

end Sys2Proof.Laws
end

