-- ==== Sys2Proof/Laws/Step.lean ====
section
/-! SUPPORT. The step and run-to-halt, unfolded once. -/

namespace Sys2Proof.Machine

theorem step_of_halted {s : State} (h : s.halted = true) : step s = .fault (.haltedMachine s.out) := by
  simp [step, h]

theorem step_of_running {s : State} (h : s.halted = false) : step s = exec (decode (fetch s)) s := by
  simp [step, h]

/-- A step answers a next state only of a running machine, and it is what executing the fetched word answers. -/
theorem step_eq_next {s t : State} (h : step s = .next t) : s.halted = false ∧ exec (decode (fetch s)) s = .next t := by
  cases hh : s.halted with
  | true => rw [step_of_halted hh] at h; cases h
  | false => exact ⟨rfl, step_of_running hh ▸ h⟩

/-- A step of a word with a mnemonic's opcode executes that mnemonic's term. -/
theorem step_of_opcode {s : State} (h : s.halted = false) (m : Mnemonic)
    (ho : (s.mem.read s.pc).toNat / 4096 = (Config.opcodeMap m).toNat) :
    step s = exec (decodeAs m (s.mem.read s.pc)) s := by
  rw [step_of_running h, fetch, decode_of_opcode m ((opcodeField_eq_iff _ _).mpr ho)]

/-- A step of a word with an unassigned opcode is fatal. -/
theorem step_of_unassigned {s : State} (h : s.halted = false)
    (ho : Config.mnemonicOf (opcodeField (s.mem.read s.pc)) = none) :
    step s = .fault (.unknownOpcode (opcodeField (s.mem.read s.pc)) s.pc s.out) := by
  rw [step_of_running h, fetch, decode_of_unassigned ho]
  rcases Config.mnemonicOf_eq_none.mp ho with h | h | h <;> rw [h] <;> rfl

/-- The trap term of a vector does what the dispatch on that vector does. -/
theorem exec_decodeTrap (v : BitVec 8) (s : State) : exec (decodeTrap v) s = execTrap v s := by
  unfold decodeTrap execTrap
  by_cases h1 : v = 0x21#8
  · subst h1; rfl
  · by_cases h2 : v = 0x23#8
    · subst h2; rfl
    · by_cases h3 : v = 0x25#8
      · subst h3; rfl
      · simp only [h1, h2, h3, if_false]
        change execTrap v s = _
        simp [execTrap, h1, h2, h3]

/-- Every mnemonic's handler advances the pc first, but for LDI, STI, JMP and TRAP (R89). -/
theorem advancesFirst_decodeAs (m : Mnemonic) (w : Word) :
    advancesFirst (decodeAs m w) = true ↔ m ≠ .ldi ∧ m ≠ .sti ∧ m ≠ .jmp ∧ m ≠ .trap := by
  have ht : ∀ v, advancesFirst (decodeTrap v) = false := by decide
  cases m
  case trap => simp [decodeAs, ht]
  case add => simp only [decodeAs]; split <;> simp [advancesFirst]
  case and => simp only [decodeAs]; split <;> simp [advancesFirst]
  all_goals simp [decodeAs, advancesFirst]

/-- All that a step of a running machine can be, by the opcode of the fetched word. -/
theorem step_running_cases {s : State} (h : s.halted = false) :
    (∃ m, opcodeField (s.mem.read s.pc) = Config.opcodeMap m ∧ (m ≠ .ldi ∧ m ≠ .sti ∧ m ≠ .jmp ∧ m ≠ .trap) ∧
      advancesFirst (decodeAs m (s.mem.read s.pc)) = true ∧ step s = exec (decodeAs m (s.mem.read s.pc)) s) ∨
    (opcodeField (s.mem.read s.pc) = 0xA#4 ∧ step s = .fault (.unknownOpcode 0xA#4 s.pc s.out)) ∨
    (opcodeField (s.mem.read s.pc) = 0xB#4 ∧ step s = .fault (.unknownOpcode 0xB#4 s.pc s.out)) ∨
    (opcodeField (s.mem.read s.pc) = 0xC#4 ∧ step s = .next (s.setPc (s.reg (regField (s.mem.read s.pc) 6)))) ∨
    (opcodeField (s.mem.read s.pc) = 0xF#4 ∧ step s = execTrap (trapvect8Field (s.mem.read s.pc)) s) ∨
    ((opcodeField (s.mem.read s.pc) = 0x4#4 ∨ opcodeField (s.mem.read s.pc) = 0x8#4 ∨
        opcodeField (s.mem.read s.pc) = 0xD#4) ∧
      step s = .fault (.unknownOpcode (opcodeField (s.mem.read s.pc)) s.pc s.out)) := by
  rcases opcode_cases (s.mem.read s.pc) with ⟨m, hm⟩ | hn
  · have hs := step_of_opcode h m ((opcodeField_eq_iff _ _).mp hm)
    by_cases hadv : m ≠ .ldi ∧ m ≠ .sti ∧ m ≠ .jmp ∧ m ≠ .trap
    · exact .inl ⟨m, hm, hadv, (advancesFirst_decodeAs m _).mpr hadv, hs⟩
    · cases m <;> simp at hadv
      · exact .inr <| .inl ⟨hm, hs⟩
      · exact .inr <| .inr <| .inl ⟨hm, hs⟩
      · exact .inr <| .inr <| .inr <| .inl ⟨hm, hs⟩
      · exact .inr <| .inr <| .inr <| .inr <| .inl ⟨hm, hs.trans (exec_decodeTrap _ _)⟩
  · exact .inr <| .inr <| .inr <| .inr <| .inr ⟨Config.mnemonicOf_eq_none.mp hn, step_of_unassigned h hn⟩

theorem runToHalt_of_halted {s : State} (h : s.halted = true) (fuel : Nat) : runToHalt fuel s = .halted s := by
  cases fuel <;> simp [runToHalt, h]

theorem runToHalt_succ_of_next {s t : State} (hs : s.halted = false) (h : step s = .next t) (fuel : Nat) :
    runToHalt (fuel + 1) s = runToHalt fuel t := by
  simp [runToHalt, hs, h]

theorem runSteps_succ_of_next {s t : State} (h : step s = .next t) (k : Nat) : runSteps (k + 1) s = runSteps k t := by
  simp [runSteps, h]

/-- A run of at least one step that answers a next state began with a step that did. -/
theorem runSteps_succ_eq_next {s t : State} {k : Nat} (h : runSteps (k + 1) s = .next t) :
    ∃ u, step s = .next u ∧ runSteps k u = .next t := by
  unfold runSteps at h
  split at h
  · next u hu => exact ⟨u, hu, h⟩
  · cases h
  · cases h

/-- What every step keeps, every run keeps. -/
theorem runSteps_induction {P : State → State → Prop} (refl : ∀ s, P s s)
    (tail : ∀ s u t, step s = .next u → P u t → P s t) {k : Nat} {s t : State} (h : runSteps k s = .next t) : P s t := by
  induction k generalizing s with
  | zero => cases h; exact refl t
  | succ k ih =>
    obtain ⟨u, hu, hk⟩ := runSteps_succ_eq_next h
    exact tail s u t hu (ih hk)

/-- The fetch after a word is placed reads that word. -/
theorem fetch_withFetchWord (s : State) (nbits w : Nat) :
    fetch (s.withFetchWord nbits w) = BitVec.ofNat 16 (w % 2 ^ nbits) := by
  simp [fetch, State.withFetchWord]

end Sys2Proof.Machine
end

