-- ==== Sys2Proof/Tests/Slice0.lean ====
section
/-! SUPPORT. The model's own tests. Expected values are those of spec/95_test_vectors.md, or written out by hand from
the encodings of spec/30_encoding.md; the witnesses give each obligation's hypotheses a state that meets them. -/

namespace Sys2Proof.Tests

open Sys2Proof.Machine

/-! ## Helpers -/

/-- The state after reset but for the pc, the word the next step fetches, and some registers. -/
def stateAt (pc w : Word) (regs : List (RegIdx × Word)) : State :=
  regs.foldl (fun s r => s.setReg r.1 r.2) ((State.reset.setPc pc).store pc w)

/-- One step answers a next state of which `p` holds. -/
def stepsTo (s : State) (p : State → Bool) : Bool :=
  match step s with
  | .next t => p t
  | .fault _ => false
  | .refused _ => false

/-- One step faults with `f`. -/
def stepFaults (s : State) (f : Fault) : Bool :=
  match step s with
  | .next _ => false
  | .fault g => g == f
  | .refused _ => false

/-- One step holds for input. -/
def stepHolds (s : State) : Bool :=
  match step s with
  | .next _ => false
  | .fault _ => false
  | .refused r => r == .awaitingInput

/-- One register and the pc after one step. -/
def gives (s : State) (r : RegIdx) (v pc : Word) : Bool := stepsTo s fun t => t.reg r == v && t.pc == pc

/-- One memory cell and the pc after one step. -/
def stores (s : State) (a v pc : Word) : Bool := stepsTo s fun t => t.mem.read a == v && t.pc == pc

/-- The word an encoder function gives, or none where it fails. -/
def wordOf (f : Form) : Option Word := (encodeForm f).toOption

/-- What a source of the given lines assembles to: the words from 0x3000 on, the cursor, and how many lines got the
diagnostic. -/
def assemblesTo (source : List String) (words : List Word) (diagnostics : Nat) : Bool :=
  match assemble (source.map String.toList) with
  | .ok st => (List.range words.length).map (fun k => st.image.read (BitVec.ofNat 16 (0x3000 + k))) == words &&
      st.cursor == BitVec.ofNat 16 (0x3000 + words.length) && st.diagnostics.length == diagnostics
  | .error _ => false

/-- The class of the error a one-line source ends with, or none. -/
def lineError (line : String) : Option ErrorClass :=
  match assemble [line.toList] with
  | .ok _ => none
  | .error e => some e.errorClass

/-! ## WellFormed refuses the ill-formed term (log 10) -/

theorem test_wf_refuses_plain_out : (Instr.trap 0x21#8).wf = false := by decide
theorem test_wf_refuses_plain_getc : (Instr.trap 0x23#8).wf = false := by decide
theorem test_wf_refuses_plain_halt : (Instr.trap 0x25#8).wf = false := by decide
theorem test_wf_accepts_other_vector : (Instr.trap 0x20#8).wf = true := by decide

/-! ## Sign extension (L1-1) -/

theorem test_sextInt : sextInt 5 0b11111 = -1 ∧ sextInt 5 0b01111 = 15 ∧ sextInt 9 0 = 0 := by decide

/-! ## Decoding: each constructor, from a word written out field by field -/

theorem test_decode_br : decode 0b0000010000000110#16 = .br false true false 6#9 := by decide
theorem test_decode_addReg : decode 0b0001001010000011#16 = .addReg 1 2 3 := by decide
theorem test_decode_addReg_ignores : decode 0b0001000000011000#16 = .addReg 0 0 0 := by decide
theorem test_decode_addImm : decode 0b0001001010110000#16 = .addImm 1 2 0b10000#5 := by decide
theorem test_decode_ld : decode 0b0010010000000010#16 = .ld 2 2#9 := by decide
theorem test_decode_st : decode 0b0011100000000101#16 = .st 4 5#9 := by decide
theorem test_decode_andReg : decode 0b0101000001000010#16 = .andReg 0 1 2 := by decide
theorem test_decode_andImm : decode 0b0101010011111111#16 = .andImm 2 3 0b11111#5 := by decide
theorem test_decode_ldr : decode 0b0110001010111111#16 = .ldr 1 2 0b111111#6 := by decide
theorem test_decode_str : decode 0b0111001010010000#16 = .str 1 2 0b010000#6 := by decide
theorem test_decode_not : decode 0b1001111000111111#16 = .notReg 7 0 := by decide
theorem test_decode_ldi : decode 0b1010001000000001#16 = .ldi 1 1#9 := by decide
theorem test_decode_sti : decode 0b1011001111111111#16 = .sti 1 0b111111111#9 := by decide
theorem test_decode_jmp : decode 0b1100111111111111#16 = .jmp 7 := by decide
theorem test_decode_lea : decode 0b1110000111111111#16 = .lea 0 0b111111111#9 := by decide
theorem test_decode_trap : decode 0b1111000011111111#16 = .trap 0xFF#8 := by decide
theorem test_decode_trapOut : decode 0b1111000000100001#16 = .trapOut := by decide
theorem test_decode_trapGetc : decode 0b1111000000100011#16 = .trapGetc := by decide
theorem test_decode_trapHalt : decode 0b1111000100100101#16 = .trapHalt := by decide
theorem test_decode_illegal4 : decode 0b0100000000000000#16 = .illegal4 := by decide
theorem test_decode_illegal8 : decode 0b1000000000000000#16 = .illegal8 := by decide
theorem test_decode_illegalD : decode 0b1101000100100011#16 = .illegalD := by decide
theorem test_decode_refuses_no_word : decodeWords [] = .error .noWord := by rfl
theorem test_decodeTableWord : decodeTableWord 16 0xE201 = some (.lea 1 1#9) := by decide

/-! ## Encoding (2.1) -/

theorem test_encode_words :
    [wordOf (.addi 0 0 (-16)), wordOf (.addr 7 7 7), wordOf (.andi 2 3 (-1)), wordOf (.andr 0 1 2), wordOf (.not 7 0),
      wordOf (.ld 0 (-256)), wordOf (.lea 0 (-1)), wordOf (.sti 7 0), wordOf (.ldr 0 0 (-32)), wordOf (.str 1 2 16),
      wordOf (.br true false true 255), wordOf (.jmp 7), wordOf (.trap 0x23)] =
    [0x1030#16, 0x1FC7#16, 0x54FF#16, 0x5042#16, 0x9E3F#16, 0x2100#16, 0xE1FF#16, 0xBE00#16, 0x6020#16, 0x7290#16,
      0x0AFF#16, 0xC1C0#16, 0xF023#16].map some := by decide
theorem test_encode_refuses :
    [wordOf (.addi 0 0 16), wordOf (.addi 0 0 (-17)), wordOf (.addr 8 0 0), wordOf (.addr 0 (-1) 0), wordOf (.ld 0 256),
      wordOf (.ld 0 (-257)), wordOf (.ldr 0 0 32), wordOf (.str 0 0 (-33)), wordOf (.trap 0x20), wordOf (.trap 0x125)] =
    List.replicate 10 none := by decide

/-! ## One step each (1, 2.3 to 2.7) -/

theorem test_addImm_wraps : gives (stateAt 0x3000 0x12A1 [(2, 0x7FFF)]) 1 0x8000 0x3001 = true := by decide
theorem test_addImm_negative : gives (stateAt 0x3000 0x1270 [(1, 0x8000)]) 1 0x7FF0 0x3001 = true := by decide
theorem test_addReg_carry : gives (stateAt 0x3000 0x1042 [(1, 0xFFFF), (2, 0x0001)]) 0 0x0000 0x3001 = true := by decide
theorem test_addReg_source_is_destination : gives (stateAt 0x3000 0x1241 [(1, 5)]) 1 0x000A 0x3001 = true := by decide
theorem test_andReg : gives (stateAt 0x3000 0x5042 [(1, 0xF0F0), (2, 0x3C3C)]) 0 0x3030 0x3001 = true := by decide
theorem test_andImm_positive : gives (stateAt 0x3000 0x50EF [(3, 0x1234)]) 0 0x0004 0x3001 = true := by decide
theorem test_andImm_minus_one : gives (stateAt 0x3000 0x507F [(1, 0xABCD)]) 0 0xABCD 0x3001 = true := by decide
theorem test_not : gives (stateAt 0x3000 0x903F [(0, 0x00FF)]) 0 0xFF00 0x3001 = true := by decide
theorem test_not_ignores : gives (stateAt 0x3000 0x9240 [(1, 0xFFFF)]) 1 0x0000 0x3001 = true := by decide
theorem test_ld_own_word : gives (stateAt 0x3000 0x21FF []) 0 0x21FF 0x3001 = true := by decide
theorem test_ld_wraps : gives ((stateAt 0x0000 0x2100 []).store 0xFF01 0x0007) 0 0x0007 0x0001 = true := by decide
theorem test_st : stores (stateAt 0x3000 0x3805 [(4, 0x0042)]) 0x3006 0x0042 0x3001 = true := by decide
theorem test_ldr_negative : gives ((stateAt 0x3000 0x62BF [(2, 0x4000)]).store 0x3FFF 0x1111) 1 0x1111 0x3001 = true := by
  decide
theorem test_ldr_base_is_destination :
    gives ((stateAt 0x3000 0x6240 [(1, 0x5000)]).store 0x5000 0x0077) 1 0x0077 0x3001 = true := by decide
theorem test_str_16 : stores (stateAt 0x3000 0x7290 [(1, 0xAAAA), (2, 0x4000)]) 0x3FF0 0xAAAA 0x3001 = true := by decide
theorem test_str_minus_17 : stores (stateAt 0x3000 0x72AF [(1, 0xAAAA), (2, 0x4000)]) 0x400F 0xAAAA 0x3001 = true := by
  decide
theorem test_lea : gives (stateAt 0x3000 0xE201 []) 1 0x3002 0x3001 = true := by decide
theorem test_lea_wraps : gives (stateAt 0xFFF0 0xE0FF []) 0 0x00F0 0xFFF1 = true := by decide
theorem test_br_taken : stepsTo (stateAt 0x3000 0x0406 []) (fun t => t.pc == 0x3007#16) = true := by decide
theorem test_br_not_taken :
    stepsTo { stateAt 0x3000 0x0406 [] with cc := .negative } (fun t => t.pc == 0x3001#16) = true := by decide
theorem test_jmp_at_top : stepsTo (stateAt 0xFFFF 0xC1C0 [(7, 0xFFFF)]) (fun t => t.pc == 0xFFFF#16) = true := by decide
theorem test_jmp_ignores : stepsTo (stateAt 0x3000 0xCFFF [(7, 0x1234)]) (fun t => t.pc == 0x1234#16) = true := by decide
theorem test_out : stepsTo (stateAt 0x3000 0xF021 [(0, 0x0141)]) (fun t => t.out == [0x41#8] && t.pc == 0x3001#16) = true := by
  decide
theorem test_out_at_top : stepFaults (stateAt 0xFFFF 0xF021 [(0, 0xFF7E)]) (.pcOverflow 0xFFFF [0x7E]) = true := by decide
theorem test_getc_skips_sentinel :
    gives { stateAt 0x3000 0xF023 [(0, 0xFFFF)] with input := [256, 0x5A] } 0 0x005A 0x3001 = true := by decide
theorem test_getc_holds : stepHolds { stateAt 0x3000 0xF023 [] with input := [256] } = true := by decide
theorem test_halt_at_top : stepsTo (stateAt 0xFFFF 0xF025 []) (fun t => t.halted && t.pc == 0xFFFF#16) = true := by decide
theorem test_halt_ignores : stepsTo (stateAt 0x3000 0xF125 []) (fun t => t.halted && t.pc == 0x3000#16) = true := by decide
theorem test_trap_other : stepFaults (stateAt 0x3000 0xF020 []) (.unimplementedTrap 0x20 []) = true := by decide
theorem test_ldi : stepFaults (stateAt 0x3000 0xA201 []) (.unknownOpcode 0xA 0x3000 []) = true := by decide
theorem test_sti : stepFaults (stateAt 0x3000 0xB3FF []) (.unknownOpcode 0xB 0x3000 []) = true := by decide
theorem test_illegal4 : stepFaults (stateAt 0x3000 0x4000 []) (.unknownOpcode 0x4 0x3000 []) = true := by decide
theorem test_illegal8 : stepFaults (stateAt 0x3000 0x8000 []) (.unknownOpcode 0x8 0x3000 []) = true := by decide
theorem test_illegalD : stepFaults (stateAt 0x3000 0xD123 []) (.unknownOpcode 0xD 0x3000 []) = true := by decide
theorem test_overflow_at_top : stepFaults (stateAt 0xFFFF 0x1020 []) (.pcOverflow 0xFFFF []) = true := by decide
theorem test_halted_machine : stepFaults { stateAt 0x3000 0x1020 [] with halted := true } (.haltedMachine []) = true := by
  decide

/-! ## The assembler (2.8, P6) -/

theorem test_assemble_program :
    assemblesTo ["; demo program", "LEA R1, #1", "HALT", "", "ADD R1, R1, #-1", "TRAP #37"] [0xE201, 0x127F, 0xF025] 1 =
      true := by decide
theorem test_assemble_spellings :
    assemblesTo ["ADD R1 R2 #-1", "BR #0", "BRpn #3", "BRzz #1", "BRx #1", "add R1, R1, R1"]
      [0x12BF, 0x0000, 0x0A03, 0x0401] 2 = true := by decide
theorem test_assemble_stores_and_loads :
    assemblesTo ["LD R2, #2", "ST R4, #5", "LDR R1, R2, #-1", "STR R1, R2, #3", "LDI R1, #1", "STI R1, #-1"]
      [0x2402, 0x3805, 0x62BF, 0x7283, 0xA201, 0xB3FF] 0 = true := by decide
theorem test_assemble_other_shapes :
    assemblesTo ["ADD R1, R2, R3", "AND R0, R1, R2", "AND R0, R3, #15", "NOT R7, R0", "LEA R0, #-1", "JMP R7"]
      [0x1283, 0x5042, 0x50EF, 0x9E3F, 0xE1FF, 0xC1C0] 0 = true := by decide
theorem test_assemble_errors :
    ["TRAP #36", "LDR R1, R2, #32", "TRAP x25", "R1 ADD", "NOT R1", "JMP R1, R2", "LD R1, R2"].map lineError =
      [some .encodingRangeError, some .encodingRangeError, some .malformedOperand, some .malformedOperand,
        some .malformedOperand, some .malformedOperand, some .malformedOperand] := by decide

/-! ## The image file (R36, R37) -/

theorem test_image_byte_order :
    wordsOfBytes .big [0x12#8, 0x34#8] = [0x1234#16] ∧ wordsOfBytes .little [0x12#8, 0x34#8] = [0x3412#16] := by decide
theorem test_image_short : readImage .little [0x12#8] = .error (.malformedImage 1) := by rfl

/-! ## Witnesses: a state and operands that meet each obligation's hypotheses together, a clause at a time -/

theorem witness_StepKeepsInvariant :
    ∃ t, (stateAt 0x3000 0x3805 [(4, 0x0042)]).Inv ∧ step (stateAt 0x3000 0x3805 [(4, 0x0042)]) = .next t :=
  ⟨_, by show Memory.wf _ = true; decide, rfl⟩

theorem witness_StepRunsDecodedInstruction :
    (stateAt 0xFFFF 0xC1C0 []).halted = false ∧
      decode ((stateAt 0xFFFF 0xC1C0 []).mem.read (stateAt 0xFFFF 0xC1C0 []).pc) = .jmp 7 := by decide

theorem witness_StepOfHaltedMachineFails :
    ({ State.reset with halted := true } : State).halted = true ∧ ∃ t, exec .trapHalt State.reset = .next t :=
  ⟨rfl, _, rfl⟩

theorem witness_StepEndsInOneOfThreeWays :
    (∃ t, step (stateAt 0x3000 0xF021 []) = .next t) ∧ (∃ f, step (stateAt 0xFFFF 0xF021 []) = .fault f) ∧
      ∃ r, step (stateAt 0xFFFE 0xF023 []) = .refused r ∧ (255 : Nat) ≤ 255 ∧ (stateAt 0xFFFE 0xF023 []).pc ≠ 0xFFFF#16 :=
  ⟨⟨_, rfl⟩, ⟨_, rfl⟩, _, rfl, by decide, by decide⟩

theorem witness_AdvanceFromTopIsFatal :
    (advancesFirst (.ld 0 0) = true ∧ (stateAt 0xFFFF 0 []).pc = 0xFFFF#16) ∧
    (advancesFirst (.lea 7 0x1FF) = true ∧ (stateAt 0xFFFE 0 []).pc ≠ 0xFFFF#16 ∧
      ∀ n z p off, Instr.lea 7 0x1FF ≠ .br n z p off) ∧
    (255 : Nat) ∈ ({ stateAt 0xFFFF 0 [] with input := [256, 255] } : State).input ∧ (255 : Nat) ≤ 255 :=
  ⟨by decide, ⟨rfl, by decide, fun _ _ _ _ h => by cases h⟩, by decide, by decide⟩

theorem witness_UnassignedOpcodeIsFatal :
    (stateAt 0xFFFF 0xDFFF []).halted = false ∧
      ∀ m, Config.opcodeMap m ≠ opcodeField ((stateAt 0xFFFF 0xDFFF []).mem.read (stateAt 0xFFFF 0xDFFF []).pc) :=
  ⟨rfl, fun m => by cases m <;> decide⟩

/-- Each of the five ways to fault. -/
theorem witness_StepFaultsExactlyWhen :
    stepFaults { State.reset with halted := true } (.haltedMachine []) = true ∧
    stepFaults (stateAt 0xFFFF 0xBFFF []) (.unknownOpcode 0xB 0xFFFF []) = true ∧
    stepFaults (stateAt 0xFFFF 0xEFFF []) (.pcOverflow 0xFFFF []) = true ∧
    stepFaults (stateAt 0xFFFF 0xF026 []) (.unimplementedTrap 0x26 []) = true ∧
    stepFaults { stateAt 0xFFFF 0xF023 [] with input := [255] } (.pcOverflow 0xFFFF []) = true := by decide

theorem witness_RunningStepCompletes :
    let s := { stateAt 0xFFFE 0xF023 [] with input := [256, 255] }
    s.halted = false ∧ s.pc ≠ 0xFFFF#16 ∧ (s.mem.read s.pc).toNat / 4096 ∉ [0x4, 0x8, 0xA, 0xB, 0xD] ∧
      (s.mem.read s.pc).toNat / 4096 = 0xF ∧ (s.mem.read s.pc).toNat % 256 ∈ [0x21, 0x23, 0x25] ∧
      (s.mem.read s.pc).toNat % 256 = 0x23 ∧ ∃ v ∈ s.input, v ≤ 255 := by decide

/-- JMP at the top, HALT, BR and any other instruction: one successful step of each. -/
theorem witness_PcAfterStep :
    stepsTo (stateAt 0xFFFF 0xC1C0 []) (fun _ => true) = true ∧ stepsTo (stateAt 0xFFFF 0xF025 []) (fun _ => true) = true ∧
    stepsTo (stateAt 0xFFFE 0x0FFF []) (fun _ => true) = true ∧
    stepsTo (stateAt 0xFFFE 0xE000 []) (fun _ => true) = true ∧ 0xC1C0 / 64 % 8 = (7 : RegIdx).val := by decide

theorem witness_NothingWritesCc :
    (∃ t, runSteps 2 State.reset = .next t) ∧ (applyHost (.writeCc .negative) State.reset).cc ≠ State.reset.cc :=
  ⟨⟨_, rfl⟩, by decide⟩

theorem witness_UntouchedProgramBranchesOnZero :
    ∃ s, runSteps 1 { State.resetWith [] with input := [0x5A] } = .next s ∧ s.pc ≠ 0xFFFF#16 := ⟨_, rfl, by decide⟩

theorem witness_HaltedIsSetByHaltAlone :
    stepsTo (stateAt 0xFFFF 0xFF25 []) (fun t => t.halted) = true ∧ stepsTo (stateAt 0 0 []) (fun t => !t.halted) = true ∧
      ({ State.reset with halted := true } : State).halted = true := by decide

/-- One state for the completion statements of every instruction that advances: the last address below the top. -/
theorem witness_completion : (stateAt 0xFFFE 0 []).pc ≠ 0xFFFF#16 := by decide

/-- BR: a taken and an untaken combination. -/
theorem witness_BrCompletes :
    (stateAt 0xFFFE 0 []).pc ≠ 0xFFFF#16 ∧ (stateAt 0xFFFE 0 []).cc = .zero ∧
      ((false = true ∧ CC.zero = .negative) ∨ (true = true ∧ CC.zero = .zero) ∨ (false = true ∧ CC.zero = .positive)) ∧
      ¬((true = true ∧ CC.zero = .negative) ∨ (false = true ∧ CC.zero = .zero) ∨ (true = true ∧ CC.zero = .positive)) := by
  decide

theorem witness_GetcCompletesOrHolds :
    ({ stateAt 0xFFFE 0 [] with input := [256, 255, 0] } : State).input = [256] ++ 255 :: [0] ∧
      (∀ v ∈ [256], 255 < v) ∧ (255 : Nat) ≤ 255 ∧ (stateAt 0xFFFE 0 []).pc ≠ 0xFFFF#16 ∧
      ∀ v ∈ ({ stateAt 0xFFFE 0 [] with input := [256] } : State).input, 255 < v := by decide

theorem witness_TrapDispatchesOnVector :
    (0x24#8).toNat ∉ [0x21, 0x23, 0x25] ∧ (stateAt 0xFFFE 0 []).pc ≠ 0xFFFF#16 := by decide

theorem witness_OtherTrapVectorIsFatal :
    (let s := stateAt 0xFFFF 0xFF24 []
     s.halted = false ∧ (s.mem.read s.pc).toNat / 4096 = 0xF ∧ (s.mem.read s.pc).toNat % 256 ∉ [0x21, 0x23, 0x25]) ∧
    wordOf (.trap 0x25) = some 0xF025#16 ∧ (0xF025#16).toNat / 4096 = 0xF := by decide

/-- A running state at `pc` whose next word is such that `p` holds of it. -/
def meets (pc w : Word) (p : Nat → Bool) : Bool :=
  let s := stateAt pc w []
  !s.halted && s.pc == pc && s.cc == .zero && p (s.mem.read s.pc).toNat

/-- ADD with both forms of the second operand, AND and NOT, with every register field 7. -/
theorem witness_OperateWordsRunAsWritten :
    [0x1FC7#16, 0x1FF7#16, 0x5FC7#16, 0x9FC7#16].all (fun w => meets 0xFFFE w fun ir =>
      ir / 512 % 8 == 7 && ir / 64 % 8 == 7 && ir % 8 == 7 && [0x1, 0x5, 0x9].contains (ir / 4096)) = true := by decide

/-- LD, LEA and BR at the top and below it, with register field 7; BR taken (z, cc = ZERO) and not (n and p). -/
theorem witness_LdLeaAndBrRunAsWritten :
    [0xFFFF#16, 0xFFFE#16].all (fun pc =>
      meets pc 0x2FFF (fun ir => ir / 512 % 8 == 7 && ir / 4096 == (Config.opcodeMap .ld).toNat) &&
      meets pc 0xEFFF (fun ir => ir / 512 % 8 == 7 && ir / 4096 == (Config.opcodeMap .lea).toNat) &&
      meets pc 0x05FF (fun ir => ir / 1024 % 2 == 1 && ir / 4096 == (Config.opcodeMap .br).toNat) &&
      meets pc 0x0BFF (fun ir => ir / 1024 % 2 == 0 && ir / 4096 == (Config.opcodeMap .br).toNat)) = true := by decide

theorem witness_StAndBaseOffsetWordsRunAsWritten :
    [0x3FFF#16, 0x6FFF#16, 0x7FFF#16].all (fun w => meets 0xFFFE w fun ir =>
      ir / 512 % 8 == 7 && ir / 64 % 8 == 7 && [0x3, 0x6, 0x7].contains (ir / 4096)) = true := by decide

theorem witness_JmpCompletes :
    meets 0xFFFF 0xCFFF (fun ir => ir / 4096 == 0xC && ir / 64 % 8 == (7 : RegIdx).val) = true := by decide

theorem witness_RegistersReadAndWritten :
    (∃ t, exec (.str 1 2 0) (stateAt 0xFFFE 0 []) = .next t) ∧ (7 : RegIdx) ∉ writesOf (.str 1 2 0) ∧
    (7 : RegIdx) ∉ readsOf (.str 1 2 0) ∧ (7 : RegIdx) ∉ readsOf (.ldi 7 0) ∧
    ∃ f, exec (.ldi 7 0) (stateAt 0xFFFE 0 []) = .fault f := ⟨⟨_, rfl⟩, by decide, by decide, by decide, _, rfl⟩

theorem witness_MemoryChangesOnlyByStores :
    stepsTo (stateAt 0x3000 0x3805 [(4, 0x0042)])
      (fun t => t.mem.read 0x3006 != (stateAt 0x3000 0x3805 [(4, 0x0042)]).mem.read 0x3006) = true ∧
    0x3805 / 512 % 8 = (4 : RegIdx).val ∧ (0x3007#16 ≠ 0x3006#16) := by decide

theorem witness_StoredWordIsExecuted :
    (∃ t, exec (.st 1 0) (stateAt 0xFFFE 0 [(1, 0xF025)]) = .next t ∧ t.halted = false) ∧
    ∃ t, exec (.str 1 2 0x20) (stateAt 0xFFFE 0 [(1, 0xF025), (2, 0x4000)]) = .next t ∧ t.halted = false :=
  ⟨⟨_, rfl, rfl⟩, _, rfl, rfl⟩

/-- The three instructions of the subtraction end at the top address. -/
theorem witness_ArithmeticLaws :
    (stateAt 0xFFFC 0 []).pc ≠ 0xFFFF#16 ∧ (2 : RegIdx) ≠ 0 ∧ (stateAt 0xFFFC 0 []).pc.toNat + 3 ≤ 0xFFFF ∧
      (15 : Nat) < 16 := by decide

theorem witness_OpcodeMapAndItsGaps :
    Config.opcodeMap .br = Config.opcodeMap .br ∧ wordOf (.jmp 7) = some 0xC1C0#16 := by decide

theorem witness_EncoderAcceptsExactlyInRange :
    FormInRange (.addi 7 0 (-16)) ∧ ¬FormInRange (.addi 8 0 15) ∧ wordOf (.addi 7 0 (-16)) = some 0x1E30#16 ∧
      (16 : Nat) ≤ 16 := by
  refine ⟨⟨⟨?_, ?_⟩, ⟨?_, ?_⟩, ?_, ?_⟩, fun h => ?_, ?_, ?_⟩ <;> first | decide | exact absurd h.1.2 (by decide)

/-- A word the encoder gives, a canonical word, and two words that differ in JMP's ignored bits only. -/
theorem witness_RoundTripLaws :
    wordOf (.jmp 7) = some 0xC1C0#16 ∧ CanonicalWord 0xC1C0#16 ∧ 0xCFFF#16 &&& usedBits 0xCFFF#16 = 0xC1C0#16 &&& usedBits 0xC1C0#16 := by
  refine ⟨by decide, ?_, by decide⟩
  unfold CanonicalWord
  decide

theorem witness_DecodeOfEncodeIsIdentity :
    (Instr.str 7 7 0x20).wf = true ∧ (encode (.str 7 7 0x20)).toOption = some 0x7FE0#16 ∧ (∀ v, Instr.str 7 7 0x20 ≠ .trap v) ∧
      Instr.str 7 7 0x20 ≠ .illegal4 ∧ Instr.str 7 7 0x20 ≠ .illegal8 ∧ Instr.str 7 7 0x20 ≠ .illegalD := by
  refine ⟨by decide, by decide, fun v h => ?_, by decide, by decide, by decide⟩
  cases h

theorem witness_RunResultIsStableInFuel :
    (∀ u, runToHalt 1 (stateAt 0x3000 0xF025 []) ≠ .noResult u) ∧ (1 : Nat) ≤ 2 := by
  have h : runToHalt 1 (stateAt 0x3000 0xF025 []) = .halted { stateAt 0x3000 0xF025 [] with halted := true } := rfl
  refine ⟨fun u hu => ?_, by decide⟩
  rw [h] at hu
  cases hu

/-- A run that ends well, one that aborts, one that holds, and one that loops for ever (BRnzp to itself). -/
theorem witness_RunEndsWellExactlyAtHalt :
    (stateAt 0x3000 0xF025 []).halted = false ∧ (∃ t, EndsWell (stateAt 0x3000 0xF025 []) t) ∧
    (∃ n f, runToHalt n (stateAt 0x3000 0x4000 []) = .aborted f) ∧
    (∃ n r u, runToHalt n (stateAt 0x3000 0xF023 []) = .held r u) ∧
    ∀ n, ∃ u, runToHalt n (stateAt 0x3000 0x0FFF []) = .noResult u := by
  refine ⟨rfl, ⟨_, 1, rfl⟩, ⟨1, _, rfl⟩, ⟨1, _, _, rfl⟩, fun n => ⟨stateAt 0x3000 0x0FFF [], ?_⟩⟩
  have hs : step (stateAt 0x3000 0x0FFF []) = .next (stateAt 0x3000 0x0FFF []) := rfl
  induction n with
  | zero => rfl
  | succ n ih => unfold runToHalt; rw [hs]; exact ih

theorem witness_HostActionsWriteWhatTheyName : State.reset.Inv := rfl

theorem witness_RecognisedMnemonics :
    (∀ c ∈ ['p', 'n', 'p'], c = 'n' ∨ c = 'z' ∨ c = 'p') ∧ recognise ['T', 'R', 'A', 'P'] = some (.plain .trap) ∧
      recognise ['B', 'R', 'p', 'n'] = some (.br true false true) := by
  refine ⟨by simp, by rfl, by rfl⟩

/-- `BRx #1`: a command outside the set, a BR spelling at that. -/
theorem witness_UnrecognisedMnemonicIsSkipped :
    "BRx #1".toList.head? ≠ some ';' ∧ tokenize "BRx #1".toList = .command "BRx".toList :: [.immediate 1] ∧
      "BRx".toList ∉
        [['A', 'D', 'D'], ['A', 'N', 'D'], ['N', 'O', 'T'], ['L', 'D'], ['S', 'T'], ['L', 'D', 'I'], ['S', 'T', 'I'],
         ['L', 'E', 'A'], ['L', 'D', 'R'], ['S', 'T', 'R'], ['J', 'M', 'P'], ['T', 'R', 'A', 'P']] ∧
      ∀ flags, "BRx".toList = 'B' :: 'R' :: flags → ∃ c ∈ flags, c ≠ 'n' ∧ c ≠ 'z' ∧ c ≠ 'p' := by
  refine ⟨by decide, by rfl, by decide, fun flags h => ⟨'x', ?_, by decide, by decide, by decide⟩⟩
  have h' : "BRx".toList = 'B' :: 'R' :: ['x'] := by decide
  rw [h'] at h
  cases h
  decide

theorem witness_FirstTokenMustBeCommand :
    "R1 ADD".toList.head? ≠ some ';' ∧ tokenize "R1 ADD".toList = .register 1 :: [.command "ADD".toList] ∧
      ∀ text, Token.register 1 ≠ .command text := by
  refine ⟨by decide, by rfl, fun _ h => ?_⟩
  cases h

/-- A shape error, a range error, and a line that emits, at the cursor's last good slot and at the top. -/
theorem witness_RecognisedLineEmitsItsWord :
    "JMP R7".toList.head? ≠ some ';' ∧ tokenize "JMP R7".toList = .command "JMP".toList :: [.register 7] ∧
      recognise "JMP".toList = some (.plain .jmp) ∧ formOf (.plain .jmp) [] = none ∧
      formOf (.plain .trap) [.immediate 36] = some (.trap 36) ∧ ¬FormInRange (.trap 36) ∧
      formOf (.plain .jmp) [.register 7] = some (.jmp 7) ∧ FormInRange (.jmp 7) ∧
      ({ AsmState.start with cursor := 0xFFFF#16 } : AsmState).cursor = 0xFFFF#16 ∧
      ({ AsmState.start with cursor := 0xFFFE#16 } : AsmState).cursor ≠ 0xFFFF#16 := by
  refine ⟨by decide, by rfl, by decide, by rfl, by rfl, ?_, by rfl, ⟨by decide, by decide⟩, rfl, by decide⟩
  unfold FormInRange
  decide

theorem witness_AssembledImageIsBounded :
    ∃ st, assemble ["JMP R7".toList] = .ok st ∧ (0x2FFF#16).toNat < 0x3000 ∧ st.cursor.toNat ≤ (0x3001#16).toNat :=
  ⟨_, rfl, by decide, by decide⟩

/-- `NOT R0 R8` and `LDR R-1 R0 #0`: the index just above the range, and the one just below. -/
theorem witness_BadRegisterTokenAborts :
    ("NOT R0 R8".toList.head? ≠ some ';' ∧
      tokenize "NOT R0 R8".toList = .command "NOT".toList :: [.register 0, classify ['R', '8']] ∧
      recognise "NOT".toList = some (.plain .not) ∧ classify ['R', '8'] ∈ [.register 0, classify ['R', '8']] ∧
      parseDecimal ['8'] = some 8 ∧ 7 < 8) ∧
    "LDR R-1 R0 #0".toList.head? ≠ some ';' ∧
      tokenize "LDR R-1 R0 #0".toList =
        .command "LDR".toList :: [classify ['R', '-', '1'], .register 0, .immediate 0] ∧
      recognise "LDR".toList = some (.plain .ldr) ∧
      classify ['R', '-', '1'] ∈ [classify ['R', '-', '1'], .register 0, .immediate 0] ∧
      parseDecimal ['1'] = some 1 ∧ 0 < 1 :=
  ⟨⟨by decide, by rfl, by rfl, by simp, by rfl, by decide⟩, by decide, by rfl, by rfl, by simp, by rfl, by decide⟩

theorem witness_ImageRoundTrip : Memory.wf (Memory.write [] 0xFFFF#16 0x1234#16) = true ∧
    ∃ st, assemble ["JMP R7".toList] = .ok st := ⟨by decide, _, rfl⟩

theorem witness_ImageSizeIsChecked :
    (List.replicate 131071 0x00#8).length ≠ 131072 ∧ (List.replicate 131072 0x00#8).length = 131072 := by
  simp only [List.length_replicate]
  decide

theorem witness_ExecStartsFromImage :
    (List.replicate 131072 0x00#8).length = 131072 ∧ (List.replicate 131072 0x00#8)[2 * 65535]? = some 0x00#8 ∧
      (List.replicate 131072 0x00#8)[2 * 65535 + 1]? = some 0x00#8 := by
  refine ⟨List.length_replicate, ?_, ?_⟩ <;> rw [List.getElem?_replicate] <;> rfl

end Sys2Proof.Tests
end

section
/-! SUPPORT. Proofs of the statements about the condition code and the halted flag (R23, R25). -/

namespace Sys2Proof.Machine

variable {s t : State}

/-! ## The condition code -/

/-- None of the ways an instruction can complete writes cc. -/
theorem exec_next_cc {i : Instr} (h : exec i s = .next t) : t.cc = s.cc := by
  obtain ⟨_, _, -, rfl⟩ | ⟨_, _, -, rfl⟩ | ⟨_, rfl⟩ | ⟨-, rfl⟩ | ⟨_, _, -, -, rfl⟩ | rfl := exec_next_cases h
  · exact (State.setReg_cc ..).trans (State.setPc_cc ..)
  · exact (State.store_cc ..).trans (State.setPc_cc ..)
  · exact State.setPc_cc ..
  · exact (State.setPc_cc ..).trans (State.consoleOut_cc ..)
  · exact (State.setPc_cc ..).trans (State.setReg_cc ..)
  · rfl

theorem step_next_cc (h : step s = .next t) : t.cc = s.cc := exec_next_cc (step_eq_next h).2

theorem runSteps_next_cc {n : Nat} (h : runSteps n s = .next t) : t.cc = s.cc :=
  runSteps_induction (P := fun s t => t.cc = s.cc) (fun _ => rfl)
    (fun _ _ _ hstep hrest => hrest.trans (step_next_cc hstep)) h

/-- The other host actions write a register, the pc, memory or the input queue. -/
theorem eq_writeCc_of_applyHost_cc_ne {h : HostAction} (hcc : (applyHost h s).cc ≠ s.cc) : ∃ c, h = .writeCc c := by
  cases h with
  | writeCc c => exact ⟨c, rfl⟩
  | writeReg i v => exact absurd (State.setReg_cc s i v) hcc
  | writePc v => exact absurd (State.setPc_cc s v) hcc
  | writeMem a v => exact absurd (State.store_cc s v a) hcc
  | supplyInput v => exact absurd rfl hcc

/-- Settles O12: every step keeps cc, so every run does, by induction on its steps. -/
theorem nothingWritesCc : Obligations.NothingWritesCc :=
  ⟨fun _ _ _ => runSteps_next_cc, fun _ _ => eq_writeCc_of_applyHost_cc_ne⟩

/-! ## The halted flag -/

theorem exec_advancesFirst_next_halted {i : Instr} (hi : advancesFirst i = true) (h : exec i s = .next t) :
    t.halted = s.halted := by
  cases i with
  | addReg d a b => obtain ⟨-, rfl⟩ := execAddReg_next_iff.mp h; simp
  | addImm d a imm => obtain ⟨-, rfl⟩ := execAddImm_next_iff.mp h; simp
  | andReg d a b => obtain ⟨-, rfl⟩ := execAndReg_next_iff.mp h; simp
  | andImm d a imm => obtain ⟨-, rfl⟩ := execAndImm_next_iff.mp h; simp
  | notReg d a => obtain ⟨-, rfl⟩ := execNot_next_iff.mp h; simp
  | ld d off => obtain ⟨-, rfl⟩ := execLd_next_iff.mp h; simp
  | st r off => obtain ⟨-, rfl⟩ := execSt_next_iff.mp h; simp
  | ldr d b off => obtain ⟨-, rfl⟩ := execLdr_next_iff.mp h; simp
  | str r b off => obtain ⟨-, rfl⟩ := execStr_next_iff.mp h; simp
  | lea d off => obtain ⟨-, rfl⟩ := execLea_next_iff.mp h; simp
  | br n z p off => obtain ⟨-, rfl⟩ := execBr_next_iff.mp h; simp
  | ldi | sti | jmp | trap | trapOut | trapGetc | trapHalt | illegal4 | illegal8 | illegalD => cases hi

/-- Of the vectors that TRAP dispatches on, only HALT's sets the flag (R111, R114). -/
theorem execTrap_next_halted_iff {v : BitVec 8} (hs : s.halted = false) (h : execTrap v s = .next t) :
    t.halted = true ↔ v = 0x25#8 := by
  unfold execTrap at h
  split at h
  · next hv => obtain ⟨-, rfl⟩ := serviceOut_next_iff.mp h; simp [hs, hv]
  · split at h
    · next hv => obtain ⟨_, _, -, -, rfl⟩ := serviceGetc_next_iff.mp h; simp [hs, hv]
    · split at h
      · next hv => obtain rfl := serviceHalt_next_iff.mp h; simp [hv]
      · cases h

/-- No other mnemonic shares TRAP's opcode. -/
theorem opcodeMap_ne_trap {m : Mnemonic} (h : m ≠ .trap) : Config.opcodeMap m ≠ 0xF#4 := by
  cases m
  case trap => exact absurd rfl h
  all_goals decide

/-- Which fetched words set the flag, by the word's fields. -/
theorem step_next_halted_iff_fields (h : step s = .next t) :
    t.halted = true ↔
      opcodeField (s.mem.read s.pc) = 0xF#4 ∧ trapvect8Field (s.mem.read s.pc) = 0x25#8 := by
  have hs := (step_eq_next h).1
  rcases step_running_cases hs with
    ⟨m, hm, ⟨-, -, -, htrap⟩, hadv, hexec⟩ | ⟨-, hf⟩ | ⟨-, hf⟩ | ⟨hop, hjmp⟩ | ⟨hop, htrap⟩ | ⟨-, hf⟩
  · have hkeep := exec_advancesFirst_next_halted hadv (hexec ▸ h)
    simp [hkeep, hs, hm, opcodeMap_ne_trap htrap]
  · rw [hf] at h; cases h
  · rw [hf] at h; cases h
  · rw [hjmp] at h; cases h; simp [hs, hop]
  · simp [execTrap_next_halted_iff hs (htrap ▸ h), hop]
  · rw [hf] at h; cases h

/-- Settles O14, by what each way a step can go does to the flag; the rest is the halted check of the step and of
run-to-halt. -/
theorem haltedIsSetByHaltAlone : Obligations.HaltedIsSetByHaltAlone := by
  refine ⟨fun s t h => ⟨(step_eq_next h).1, ?_⟩, fun _ => step_of_halted, fun _ fuel h => runToHalt_of_halted h fuel⟩
  rw [step_next_halted_iff_fields h, opcodeField_eq_iff, BitVec.toNat_eq, toNat_trapvect8Field]
  rfl

end Sys2Proof.Machine
end

section
/-! SUPPORT. Proofs of the statement about the encoder's operand checks (R67 to R70). -/

namespace Sys2Proof.Machine

/-! ## A check, then the rest of an encoder function: it gives a word exactly where the operand is in range -/

variable {w : Word} {k : Int → Except RangeError Word}

theorem bind_eq_ok_iff {x : Except RangeError Int} : x >>= k = .ok w ↔ ∃ v, x = .ok v ∧ k v = .ok w := by
  cases x with
  | error e => simp [bind, Except.bind]
  | ok v => simp [bind, Except.bind]

theorem checkReg_bind_eq_ok_iff {r : Int} : checkReg r >>= k = .ok w ↔ RegInRange r ∧ k r = .ok w := by
  simp [bind_eq_ok_iff, checkReg_ok_iff, RegInRange, and_assoc]

theorem checkSigned_bind_eq_ok_iff {v : Int} {N : Nat} :
    checkSigned v N >>= k = .ok w ↔ (-(2 ^ (N - 1)) ≤ v ∧ v ≤ 2 ^ (N - 1) - 1) ∧ k v = .ok w := by
  simp [bind_eq_ok_iff, checkSigned_ok_iff, and_assoc]

theorem checkVect_bind_eq_ok_iff {v : Int} :
    checkVect v >>= k = .ok w ↔ (v = 0x21 ∨ v = 0x23 ∨ v = 0x25) ∧ k v = .ok w := by
  simp [bind_eq_ok_iff, checkVect_ok_iff, and_assoc]

/-- R70: the checks of a form's operands are all that can keep its encoder function from giving a word. -/
theorem encodeForm_gives_word_iff (f : Form) : (∃ w, encodeForm f = .ok w) ↔ FormInRange f := by
  cases f <;>
    simp [encodeForm, FormInRange, checkReg_bind_eq_ok_iff, checkSigned_bind_eq_ok_iff, checkVect_bind_eq_ok_iff,
      pure, Except.pure]

/-! ## The value of a packed field -/

/-- A field of at most 16 bits loses nothing when it is widened to the word (R68). -/
theorem toNat_pack {v : Int} {N : Nat} (hN : N ≤ 16) : ((pack v N).toNat : Int) = v % 2 ^ N := by
  have hnonneg : 0 ≤ v % 2 ^ N := Int.emod_nonneg v (by positivity)
  rw [pack, BitVec.toNat_setWidth_of_le hN, BitVec.toNat_ofInt]
  simpa using hnonneg

/-- Settles O37: by the operand checks of each form; the checks at the three widths are their definition. -/
theorem encoderAcceptsExactlyInRange : Obligations.EncoderAcceptsExactlyInRange :=
  ⟨encodeForm_gives_word_iff, fun _ => rfl, fun _ => ⟨rfl, rfl, rfl⟩, fun _ => rfl, fun _ _ => toNat_pack⟩

end Sys2Proof.Machine
end

section
/-! SUPPORT. Proofs of the statements about the step's halted check and its fatal opcodes (R86, R91). -/

namespace Sys2Proof.Machine

/-! ## The halted check -/

/-- HALT answers a halted machine (R114). -/
theorem exec_trapHalt_next_halted {s t : State} (h : exec .trapHalt s = .next t) : t.halted = true := by
  obtain rfl := serviceHalt_next_iff.mp h
  rfl

/-- Settles O5: the halted check comes before the fetch, and HALT sets the flag that it reads. -/
theorem stepOfHaltedMachineFails : Obligations.StepOfHaltedMachineFails :=
  ⟨fun _ => step_of_halted, fun _ _ h => step_of_halted (exec_trapHalt_next_halted h)⟩

/-! ## Unassigned opcodes -/

/-- The lookup of R72 answers only mnemonics that OPCODE_MAP maps to the opcode, so it finds none here. -/
theorem mnemonicOf_eq_none_of_unmapped {op : BitVec 4} (h : ∀ m, Config.opcodeMap m ≠ op) :
    Config.mnemonicOf op = none := by
  refine Option.eq_none_iff_forall_ne_some.mpr fun m hm => ?_
  exact h m (Config.mnemonicOf_eq_some.mp hm)

/-- Settles O8: an unmapped opcode decodes to its illegal term, whose handler raises before any effect. -/
theorem unassignedOpcodeIsFatal : Obligations.UnassignedOpcodeIsFatal :=
  fun _ hs hop => step_of_unassigned hs (mnemonicOf_eq_none_of_unmapped hop)

end Sys2Proof.Machine
end

section
/-! SUPPORT. Proof of the statement about the words of LD, LEA and BR (R101, R107, R108). -/

namespace Sys2Proof.Machine

variable {s : State}

/-! ## The fields of the fetched word, in the statement's arithmetic -/

theorem regField_eq_iff {w : Word} {lo : Nat} {r : RegIdx} : regField w lo = r ↔ w.toNat / 2 ^ lo % 8 = r.val := by
  rw [Fin.ext_iff, val_regField]

/-- The effective address of R61, by the bits of the word that holds the offset. -/
theorem pcRelative_offset9Field {w : Word} (hpc : s.pc ≠ 0xFFFF#16) :
    pcRelative (s.setPc (s.pc + 1#16)) (offset9Field w) =
      BitVec.ofInt 16 (s.pc.toNat + 1 + sextInt 9 (w.toNat % 512)) := by
  rw [pcRelative_advanced hpc, toNat_offset9Field]

/-- R108's condition, by the bits of the word. -/
theorem branchTaken_bits_iff {w : Word} {cc : CC} :
    branchTaken (w.getLsbD 11) (w.getLsbD 10) (w.getLsbD 9) cc = true ↔
      (w.toNat / 2048 % 2 = 1 ∧ cc = .negative) ∨ (w.toNat / 1024 % 2 = 1 ∧ cc = .zero) ∨
        (w.toNat / 512 % 2 = 1 ∧ cc = .positive) := by
  simp only [branchTaken_eq_true, getLsbD_eq_decide, decide_eq_true_eq, Nat.reducePow]

/-! ## A step by the mnemonic of the fetched word -/

theorem step_of_opcodeField (hs : s.halted = false) (m : Mnemonic)
    (hop : opcodeField (s.mem.read s.pc) = Config.opcodeMap m) : step s = exec (decodeAs m (s.mem.read s.pc)) s :=
  step_of_opcode hs m ((opcodeField_eq_iff _ _).mp hop)

/-- At 0xFFFF a word whose handler advances first can only overflow (R90). -/
theorem step_fault_of_top (hs : s.halted = false) (hpc : s.pc = 0xFFFF#16) (m : Mnemonic)
    (hm : m ≠ .ldi ∧ m ≠ .sti ∧ m ≠ .jmp ∧ m ≠ .trap) (hop : opcodeField (s.mem.read s.pc) = Config.opcodeMap m) :
    step s = .fault (.pcOverflow 0xFFFF#16 s.out) := by
  rw [step_of_opcodeField hs m hop, exec_advancesFirst_fault_iff ((advancesFirst_decodeAs m _).mpr hm)]
  exact ⟨hpc, by rw [hpc]⟩

theorem step_ld (hs : s.halted = false) (hpc : s.pc ≠ 0xFFFF#16)
    (hop : opcodeField (s.mem.read s.pc) = Config.opcodeMap .ld) :
    step s = .next ((s.setPc (s.pc + 1#16)).setReg (regField (s.mem.read s.pc) 9)
      (s.mem.read (pcRelative (s.setPc (s.pc + 1#16)) (offset9Field (s.mem.read s.pc))))) :=
  (step_of_opcodeField hs .ld hop).trans (execLd_next_iff.mpr ⟨hpc, rfl⟩)

theorem step_lea (hs : s.halted = false) (hpc : s.pc ≠ 0xFFFF#16)
    (hop : opcodeField (s.mem.read s.pc) = Config.opcodeMap .lea) :
    step s = .next ((s.setPc (s.pc + 1#16)).setReg (regField (s.mem.read s.pc) 9)
      (pcRelative (s.setPc (s.pc + 1#16)) (offset9Field (s.mem.read s.pc)))) :=
  (step_of_opcodeField hs .lea hop).trans (execLea_next_iff.mpr ⟨hpc, rfl⟩)

theorem step_br (hs : s.halted = false) (hpc : s.pc ≠ 0xFFFF#16)
    (hop : opcodeField (s.mem.read s.pc) = Config.opcodeMap .br) :
    step s = .next (s.setPc
      (if branchTaken ((s.mem.read s.pc).getLsbD 11) ((s.mem.read s.pc).getLsbD 10) ((s.mem.read s.pc).getLsbD 9) s.cc
        then pcRelative (s.setPc (s.pc + 1#16)) (offset9Field (s.mem.read s.pc)) else s.pc + 1#16)) :=
  (step_of_opcodeField hs .br hop).trans (execBr_next_iff.mpr ⟨hpc, rfl⟩)

/-- Settles O31: by each handler's next state, with its operands read off the word's bits; at 0xFFFF the advance, which
the three handlers do first, is all that happens. -/
theorem ldLeaAndBrRunAsWritten : Obligations.LdLeaAndBrRunAsWritten := by
  intro s r hs
  refine ⟨fun hpc hop => ?top, fun hpc => ⟨fun hop hr => ?ld, fun hop hr => ?lea, fun hop => ?br⟩⟩
  case top =>
    rcases hop with hop | hop | hop
    · exact step_fault_of_top hs hpc .ld (by decide) hop
    · exact step_fault_of_top hs hpc .lea (by decide) hop
    · exact step_fault_of_top hs hpc .br (by decide) hop
  case ld => rw [step_ld hs hpc hop, pcRelative_offset9Field hpc, regField_eq_iff.mpr hr]
  case lea => rw [step_lea hs hpc hop, pcRelative_offset9Field hpc, regField_eq_iff.mpr hr]
  case br =>
    rw [step_br hs hpc hop, pcRelative_offset9Field hpc]
    exact ⟨fun htaken => by rw [if_pos (branchTaken_bits_iff.mpr htaken)],
      fun hnot => by rw [if_neg (mt branchTaken_bits_iff.mp hnot)]⟩

end Sys2Proof.Machine
end

section
/-! SUPPORT. Proofs of the statements about HALT and about TRAP with a vector that is no service (R114, R115). -/

namespace Sys2Proof.Machine

variable {s : State}

/-! ## The dispatch on the vector -/

theorem execTrap_of_no_service {v : BitVec 8} (hv : v.toNat ∉ [0x21, 0x23, 0x25]) :
    execTrap v s = .fault (.unimplementedTrap v s.out) := by
  have hne : v ≠ 0x21#8 ∧ v ≠ 0x23#8 ∧ v ≠ 0x25#8 := by simpa [BitVec.toNat_eq] using hv
  obtain ⟨hout, hgetc, hhalt⟩ := hne
  rw [execTrap, if_neg hout, if_neg hgetc, if_neg hhalt, raise_eq]

/-- A step of a TRAP word is the dispatch on its vector (R57, R111). -/
theorem step_trap (hs : s.halted = false) (hop : (s.mem.read s.pc).toNat / 4096 = 0xF) :
    step s = execTrap (trapvect8Field (s.mem.read s.pc)) s :=
  (step_of_opcode hs .trap hop).trans (exec_decodeTrap _ _)

theorem step_trap_of_no_service (hs : s.halted = false) (hop : (s.mem.read s.pc).toNat / 4096 = 0xF)
    (hv : (s.mem.read s.pc).toNat % 256 ∉ [0x21, 0x23, 0x25]) :
    step s = .fault (.unimplementedTrap (BitVec.ofNat 8 ((s.mem.read s.pc).toNat % 256)) s.out) := by
  rw [← toNat_trapvect8Field] at hv ⊢
  rw [step_trap hs hop, execTrap_of_no_service hv, BitVec.ofNat_toNat, BitVec.setWidth_eq]

/-! ## The opcode of an encoded word -/

/-- The mnemonic whose encoder function a form is the input of (R71). -/
def mnemonicOfForm : Form → Mnemonic
  | .addr _ _ _ | .addi _ _ _ => .add
  | .andr _ _ _ | .andi _ _ _ => .and
  | .not _ _ => .not
  | .ld _ _ => .ld
  | .st _ _ => .st
  | .ldi _ _ => .ldi
  | .sti _ _ => .sti
  | .lea _ _ => .lea
  | .ldr _ _ _ => .ldr
  | .str _ _ _ => .str
  | .br _ _ _ _ => .br
  | .jmp _ => .jmp
  | .trap _ => .trap

theorem opcodeField_or (a b : Word) : opcodeField (a ||| b) = opcodeField a ||| opcodeField b :=
  BitVec.extractLsb'_or

theorem opcodeField_opBits (m : Mnemonic) : opcodeField (opBits m) = Config.opcodeMap m := by
  cases m <;> decide

theorem opcodeField_eq_zero {w : Word} (h : w.toNat < 4096) : opcodeField w = 0#4 :=
  (opcodeField_eq_iff w 0#4).mpr (Nat.div_eq_of_lt h)

theorem opcodeField_shiftLeft {w : Word} {lo : Nat} (h : w.toNat * 2 ^ lo < 4096) : opcodeField (w <<< lo) = 0#4 := by
  apply opcodeField_eq_zero
  rw [BitVec.toNat_shiftLeft, Nat.shiftLeft_eq]
  exact (Nat.mod_le _ _).trans_lt h

theorem opcodeField_pack {v : Int} {N : Nat} (hN : N ≤ 12) : opcodeField (pack v N) = 0#4 := by
  apply opcodeField_eq_zero
  have hval := toNat_pack (v := v) (N := N) (by omega)
  have hlt : v % 2 ^ N < 2 ^ N := Int.emod_lt_of_pos v (by positivity)
  have hle : (2 : Int) ^ N ≤ 2 ^ 12 := pow_le_pow_right₀ (by decide) hN
  omega

theorem opcodeField_place {r : Int} {lo : Nat} (hr : RegInRange r) (hlo : lo ≤ 9) :
    opcodeField (place r lo) = 0#4 := by
  apply opcodeField_shiftLeft
  have hval : (BitVec.ofInt 16 r).toNat ≤ 7 := by
    rw [BitVec.toNat_ofInt]
    unfold RegInRange at hr
    omega
  calc (BitVec.ofInt 16 r).toNat * 2 ^ lo
      ≤ 7 * 2 ^ 9 := Nat.mul_le_mul hval (Nat.pow_le_pow_right (by decide) hlo)
    _ < 4096 := by decide

theorem opcodeField_placeBit (b : Bool) {lo : Nat} (hlo : lo ≤ 11) : opcodeField (placeBit b lo) = 0#4 := by
  apply opcodeField_shiftLeft
  have hval : ((BitVec.ofBool b).setWidth 16).toNat ≤ 1 := by cases b <;> decide
  calc ((BitVec.ofBool b).setWidth 16).toNat * 2 ^ lo
      ≤ 1 * 2 ^ 11 := Nat.mul_le_mul hval (Nat.pow_le_pow_right (by decide) hlo)
    _ < 4096 := by decide

theorem opcodeField_encodeTwoRegs {m : Mnemonic} {a b : Int} {low : Word} (ha : RegInRange a) (hb : RegInRange b)
    (hlow : opcodeField low = 0#4) : opcodeField (encodeTwoRegs m a b low) = Config.opcodeMap m := by
  simp [encodeTwoRegs, opcodeField_or, opcodeField_opBits, opcodeField_place ha, opcodeField_place hb, hlow]

theorem opcodeField_regAndOffset {m : Mnemonic} {r off : Int} (hr : RegInRange r) :
    opcodeField (opBits m ||| place r 9 ||| pack off 9) = Config.opcodeMap m := by
  simp [opcodeField_or, opcodeField_opBits, opcodeField_place hr, opcodeField_pack]

/-- TRAP's words, one for each legal vector (R69, R71). -/
theorem encodeForm_trap_eq_ok {v : Int} {w : Word} (h : encodeForm (.trap v) = .ok w) :
    w = 0xF021#16 ∨ w = 0xF023#16 ∨ w = 0xF025#16 := by
  obtain ⟨hv, hw⟩ := checkVect_bind_eq_ok_iff.mp h
  cases hw
  rcases hv with rfl | rfl | rfl
  · exact .inl (by decide)
  · exact .inr (.inl (by decide))
  · exact .inr (.inr (by decide))

/-- Every encoder function puts its own mnemonic's opcode in bits 15:12 (R71). -/
theorem opcodeField_of_encodeForm {f : Form} {w : Word} (h : encodeForm f = .ok w) :
    opcodeField w = Config.opcodeMap (mnemonicOfForm f) := by
  cases f
  case trap v =>
    change opcodeField w = 0xF#4
    rcases encodeForm_trap_eq_ok h with rfl | rfl | rfl <;> decide
  all_goals
    simp only [encodeForm, checkReg_bind_eq_ok_iff, checkSigned_bind_eq_ok_iff, pure, Except.pure,
      Except.ok.injEq] at h
  case addr d a b | andr d a b =>
    obtain ⟨hd, ha, hb, rfl⟩ := h
    exact opcodeField_encodeTwoRegs hd ha (opcodeField_place hb (by decide))
  case addi d a imm | andi d a imm =>
    obtain ⟨hd, ha, -, rfl⟩ := h
    refine opcodeField_encodeTwoRegs hd ha ?_
    rw [opcodeField_or, opcodeField_pack (by decide)]
    decide
  case not d a =>
    obtain ⟨hd, ha, rfl⟩ := h
    exact opcodeField_encodeTwoRegs hd ha (by decide)
  case ld r off | st r off | ldi r off | sti r off | lea r off =>
    obtain ⟨hr, -, rfl⟩ := h
    exact opcodeField_regAndOffset hr
  case ldr r b off | str r b off =>
    obtain ⟨hr, hb, -, rfl⟩ := h
    exact opcodeField_encodeTwoRegs hr hb (opcodeField_pack (by decide))
  case br n z p off =>
    obtain ⟨-, rfl⟩ := h
    simp [opcodeField_or, opcodeField_opBits, opcodeField_placeBit, opcodeField_pack, mnemonicOfForm]
  case jmp b =>
    obtain ⟨hb, rfl⟩ := h
    simp [opcodeField_or, opcodeField_opBits, opcodeField_place hb, mnemonicOfForm]

/-- A word with TRAP's opcode comes from TRAP's encoder function alone. -/
theorem eq_trap_of_encodeForm_opcode {f : Form} {w : Word} (h : encodeForm f = .ok w)
    (hop : opcodeField w = 0xF#4) : ∃ v, f = .trap v := by
  have hmap : Config.opcodeMap (mnemonicOfForm f) = 0xF#4 := (opcodeField_of_encodeForm h).symm.trans hop
  have hm : mnemonicOfForm f = .trap := by_contra fun hne => opcodeMap_ne_trap hne hmap
  cases f
  case trap v => exact ⟨v, rfl⟩
  all_goals cases hm

/-- Settles O27: the dispatch raises for every vector that is no service, and of the encoder functions only TRAP's makes
a word with its opcode, one for each service. -/
theorem otherTrapVectorIsFatal : Obligations.OtherTrapVectorIsFatal := by
  refine ⟨fun _ => step_trap_of_no_service, fun f w h hop => ?_⟩
  obtain ⟨v, rfl⟩ := eq_trap_of_encodeForm_opcode h ((opcodeField_eq_iff w _).mpr hop)
  rcases encodeForm_trap_eq_ok h with rfl | rfl | rfl <;> decide

/-! ## HALT -/

/-- Settles O25: HALT changes the flag alone, and the flag is what the step and run-to-halt check first. -/
theorem haltCompletes : Obligations.HaltCompletes := by
  refine ⟨by decide, fun s => ?_⟩
  have hexec : exec .trapHalt s = .next { s with halted := true } := serviceHalt_next_iff.mpr rfl
  exact ⟨_, hexec, rfl, rfl, fun _ => rfl, rfl, rfl, rfl, rfl, step_of_halted rfl, runToHalt_of_halted rfl⟩

end Sys2Proof.Machine
end

section
/-! SUPPORT. Proof of the statement about the image written and read back (R129). -/

namespace Sys2Proof.Machine

/-! ## The bytes of a written image -/

/-- The bytes of a list of words, read back in the same order, are those words. -/
theorem wordsOfBytes_flatMap_bytesOfWord (order : ByteOrder) (f : Nat → Word) (ks : List Nat) :
    wordsOfBytes order (ks.flatMap fun k => bytesOfWord order (f k)) = ks.map f := by
  induction ks with
  | nil => rfl
  | cons k ks ih => rw [List.flatMap_cons, wordsOfBytes_bytesOfWord_append, ih, List.map_cons]

theorem wordsOfBytes_writeImage (order : ByteOrder) (m : Memory) :
    wordsOfBytes order (writeImage order m) = (List.range 65536).map fun k => m.read (BitVec.ofNat 16 k) :=
  wordsOfBytes_flatMap_bytesOfWord order (fun k => m.read (BitVec.ofNat 16 k)) _

theorem length_flatMap_bytesOfWord (order : ByteOrder) (f : Nat → Word) (ks : List Nat) :
    (ks.flatMap fun k => bytesOfWord order (f k)).length = 2 * ks.length := by
  induction ks with
  | nil => rfl
  | cons k ks ih => rw [List.flatMap_cons, List.length_append, length_bytesOfWord, ih, List.length_cons]; omega

theorem length_writeImage (order : ByteOrder) (m : Memory) : (writeImage order m).length = Config.imageBytes := by
  rw [writeImage, length_flatMap_bytesOfWord, List.length_range, Config.imageBytes]

/-! ## The memory its words fill -/

theorem lowHalf_read (m : Memory) (a : Word) : lowHalf (m.read a) = m.readByte (2 * a.toNat) :=
  Memory.lowHalf_wordOfHalves _ _

theorem highHalf_read (m : Memory) (a : Word) : highHalf (m.read a) = m.readByte (2 * a.toNat + 1) :=
  Memory.highHalf_wordOfHalves _ _

/-- The words of all `n` cells in order fill a memory that is the same list, since the canonical form is unique. -/
theorem memoryOfWords_map_read {n : Nat} (hn : 2 * n = Config.imageBytes) {m : Memory} (hm : m.wf = true) :
    memoryOfWords 0 ((List.range n).map fun k => m.read (BitVec.ofNat 16 k)) = m := by
  have hsize : 2 * (0 + ((List.range n).map fun k => m.read (BitVec.ofNat 16 k)).length) ≤ Config.imageBytes := by
    simp [hn]
  have hwf := wfFrom_memoryOfWords hsize
  refine Memory.ext_of_wf hwf hm fun b => ?_
  by_cases hb : Config.imageBytes ≤ b
  · rw [Memory.readByte_of_ge hwf hb, Memory.readByte_of_ge hm hb]
  · have hj : b / 2 < n := by omega
    have hword : b / 2 < 2 ^ 16 := by unfold Config.imageBytes at hb; omega
    obtain ⟨hlow, hhigh⟩ := readByte_memoryOfWords hsize (b / 2)
    simp only [List.length_map, List.length_range, hj, dite_true, List.getElem_map, List.getElem_range, lowHalf_read,
      highHalf_read, BitVec.toNat_ofNat, Nat.mod_eq_of_lt hword, Nat.zero_add] at hlow hhigh
    rcases Nat.mod_two_eq_zero_or_one b with heven | hodd
    · rwa [show 2 * (b / 2) = b by omega] at hlow
    · rwa [show 2 * (b / 2) + 1 = b by omega] at hhigh

theorem readImage_writeImage (order : ByteOrder) {m : Memory} (hm : m.wf = true) :
    readImage order (writeImage order m) = .ok m := by
  rw [readImage, if_pos (length_writeImage order m), wordsOfBytes_writeImage, memoryOfWords_map_read rfl hm]

/-! ## The assembler keeps the canonical form -/

theorem AsmState.emit_eq_ok {st st' : AsmState} {w : Word} (h : st.emit w = .ok st') :
    st.cursor ≠ 0xFFFF#16 ∧ st' = { st with image := st.image.write st.cursor w, cursor := st.cursor + 1#16 } := by
  unfold AsmState.emit at h
  split at h
  · cases h
  · next hc => exact ⟨hc, (Except.ok.inj h).symm⟩

/-- A line that assembles changes nothing, records a diagnostic, or emits a word. -/
theorem assembleTokens_ok_cases {line : List Char} {tokens : List Token} {st st' : AsmState}
    (h : assembleTokens line st tokens = .ok st') :
    st' = st ∨ st' = { st with diagnostics := st.diagnostics ++ [line] } ∨ ∃ w, st.emit w = .ok st' := by
  unfold assembleTokens at h
  split at h
  · exact .inl (Except.ok.inj h).symm
  · split at h
    · exact .inr (.inl (Except.ok.inj h).symm)
    · split at h
      · cases h
      · split at h
        · cases h
        · next w _ => exact .inr (.inr ⟨w, h⟩)
  · cases h
  · cases h

theorem assembleLine_ok_cases {line : List Char} {st st' : AsmState} (h : assembleLine line st = .ok st') :
    st' = st ∨ st' = { st with diagnostics := st.diagnostics ++ [line] } ∨ ∃ w, st.emit w = .ok st' := by
  unfold assembleLine at h
  split at h
  · exact .inl (Except.ok.inj h).symm
  · exact assembleTokens_ok_cases h

theorem wf_image_of_assembleLine {line : List Char} {st st' : AsmState} (h : assembleLine line st = .ok st')
    (hst : st.image.wf = true) : st'.image.wf = true := by
  obtain rfl | rfl | ⟨w, hw⟩ := assembleLine_ok_cases h
  · exact hst
  · exact hst
  · obtain ⟨-, rfl⟩ := AsmState.emit_eq_ok hw
    exact Memory.wf_write _ _ hst

theorem wf_image_of_assembleFrom {lines : List (List Char)} {st st' : AsmState}
    (h : assembleFrom st lines = .ok st') (hst : st.image.wf = true) : st'.image.wf = true := by
  induction lines generalizing st with
  | nil => exact Except.ok.inj h ▸ hst
  | cons line rest ih =>
    unfold assembleFrom at h
    split at h
    · cases h
    · next hline => exact ih h (wf_image_of_assembleLine hline hst)

/-- Settles O52: the words read back are the cells in order, and an assembled image is in canonical form, by induction
on the lines. -/
theorem imageRoundTrip : Obligations.ImageRoundTrip :=
  ⟨fun order _ hm => readImage_writeImage order hm,
    fun order _ _ h => readImage_writeImage order (wf_image_of_assembleFrom h Memory.wf_nil)⟩

end Sys2Proof.Machine
end

section
/-! SUPPORT. Proofs of the statements about the encoder and the decoder together (R58, R59, R65, R71 to R73). -/

namespace Sys2Proof.Machine

open Sys2Proof.Laws

/-! ## The number of an encoded word: its fields do not overlap, so they add up -/

theorem toNat_or_of_dvd_of_lt {x y : Word} (k : Nat) (hx : 2 ^ k ∣ x.toNat) (hy : y.toNat < 2 ^ k) :
    (x ||| y).toNat = x.toNat + y.toNat := by
  obtain ⟨q, hq⟩ := hx
  rw [BitVec.toNat_or, hq, Nat.two_pow_add_eq_or_of_lt hy]

theorem toNat_opBits (m : Mnemonic) : (opBits m).toNat = 4096 * (Config.opcodeMap m).toNat := by
  cases m <;> decide

theorem toNat_place {r : Int} (hr : RegInRange r) {lo : Nat} (hlo : lo ≤ 9) :
    ((place r lo).toNat : Int) = 2 ^ lo * r := by
  obtain ⟨h0, h7⟩ := hr
  obtain ⟨n, rfl⟩ := Int.eq_ofNat_of_zero_le h0
  have hlt : n * 2 ^ lo < 65536 :=
    calc n * 2 ^ lo ≤ 7 * 2 ^ 9 := Nat.mul_le_mul (by omega) (Nat.pow_le_pow_right (by decide) hlo)
      _ < 65536 := by decide
  have hn : n % 65536 = n := by omega
  simp [place, Nat.shiftLeft_eq, hn, Nat.mod_eq_of_lt hlt, mul_comm]

theorem toNat_placeBit (b : Bool) {lo : Nat} (hlo : lo ≤ 11) : (placeBit b lo).toNat = 2 ^ lo * b.toNat := by
  have hlt : 2 ^ lo < 65536 := (Nat.pow_le_pow_right (by decide) hlo).trans_lt (by decide : 2 ^ 11 < 65536)
  cases b <;> simp [placeBit, Nat.shiftLeft_eq, Nat.mod_eq_of_lt hlt]

theorem toNat_opBits_or_place {m : Mnemonic} {r : Int} (hr : RegInRange r) :
    ((opBits m ||| place r 9).toNat : Int) = 4096 * (Config.opcodeMap m).toNat + 512 * r := by
  have hop := toNat_opBits m
  have hplace := toNat_place hr (lo := 9) (by decide)
  unfold RegInRange at hr
  rw [toNat_or_of_dvd_of_lt 12 (by omega) (by omega)]
  omega

theorem toNat_encodeTwoRegs {m : Mnemonic} {a b : Int} {low : Word} (ha : RegInRange a) (hb : RegInRange b)
    (hlow : low.toNat < 64) :
    ((encodeTwoRegs m a b low).toNat : Int) = 4096 * (Config.opcodeMap m).toNat + 512 * a + 64 * b + low.toNat := by
  have hhigh := toNat_opBits_or_place (m := m) ha
  have hplace := toNat_place hb (lo := 6) (by decide)
  unfold RegInRange at ha hb
  have hregs : (opBits m ||| place a 9 ||| place b 6).toNat = (opBits m ||| place a 9).toNat + (place b 6).toNat :=
    toNat_or_of_dvd_of_lt 9 (by omega) (by omega)
  rw [encodeTwoRegs, toNat_or_of_dvd_of_lt 6 (by omega) hlow, hregs]
  omega

theorem toNat_regAndOffset {m : Mnemonic} {r off : Int} (hr : RegInRange r) :
    ((opBits m ||| place r 9 ||| pack off 9).toNat : Int) =
      4096 * (Config.opcodeMap m).toNat + 512 * r + off % 512 := by
  have hhigh := toNat_opBits_or_place (m := m) hr
  have hoff := toNat_pack (v := off) (N := 9) (by decide)
  unfold RegInRange at hr
  rw [toNat_or_of_dvd_of_lt 9 (by omega) (by omega)]
  omega

theorem toNat_imm5_operand (imm : Int) : ((0x0020#16 ||| pack imm 5).toNat : Int) = 32 + imm % 32 := by
  have himm := toNat_pack (v := imm) (N := 5) (by decide)
  rw [toNat_or_of_dvd_of_lt 5 (by decide) (by omega)]
  simp [himm]

theorem toNat_brWord (n z p : Bool) (off : Int) :
    ((opBits .br ||| placeBit n 11 ||| placeBit z 10 ||| placeBit p 9 ||| pack off 9).toNat : Int) =
      2048 * n.toNat + 1024 * z.toNat + 512 * p.toNat + off % 512 := by
  have hbits : (opBits .br ||| placeBit n 11 ||| placeBit z 10 ||| placeBit p 9).toNat =
      2048 * n.toNat + 1024 * z.toNat + 512 * p.toNat := by
    revert n z p; decide
  have hoff := toNat_pack (v := off) (N := 9) (by decide)
  rw [toNat_or_of_dvd_of_lt 9 (by omega) (by omega)]
  omega

/-- The word that a form's layout gives its operands, as a number (R50 to R57). -/
def numberOfForm : Form → Int
  | .addr d a b => 0x1000 + 512 * d + 64 * a + b
  | .addi d a imm => 0x1000 + 512 * d + 64 * a + (32 + imm % 32)
  | .andr d a b => 0x5000 + 512 * d + 64 * a + b
  | .andi d a imm => 0x5000 + 512 * d + 64 * a + (32 + imm % 32)
  | .not d a => 0x9000 + 512 * d + 64 * a + 63
  | .ld r off => 0x2000 + 512 * r + off % 512
  | .st r off => 0x3000 + 512 * r + off % 512
  | .ldi r off => 0xA000 + 512 * r + off % 512
  | .sti r off => 0xB000 + 512 * r + off % 512
  | .lea r off => 0xE000 + 512 * r + off % 512
  | .ldr r b off => 0x6000 + 512 * r + 64 * b + off % 64
  | .str r b off => 0x7000 + 512 * r + 64 * b + off % 64
  | .br n z p off => 2048 * n.toNat + 1024 * z.toNat + 512 * p.toNat + off % 512
  | .jmp b => 0xC000 + 64 * b
  | .trap v => 0xF000 + v

theorem toNat_of_encodeForm {f : Form} {w : Word} (h : encodeForm f = .ok w) : (w.toNat : Int) = numberOfForm f := by
  cases f
  all_goals
    simp only [encodeForm, checkReg_bind_eq_ok_iff, checkSigned_bind_eq_ok_iff, checkVect_bind_eq_ok_iff, pure,
      Except.pure, Except.ok.injEq] at h
  case addr d a b | andr d a b =>
    obtain ⟨hd, ha, hb, rfl⟩ := h
    have hlow := toNat_place hb (lo := 0) (by decide)
    have hb' := hb
    unfold RegInRange at hb'
    rw [toNat_encodeTwoRegs hd ha (by omega), hlow]
    simp [numberOfForm, Config.opcodeMap]
  case addi d a imm | andi d a imm =>
    obtain ⟨hd, ha, -, rfl⟩ := h
    have hlow := toNat_imm5_operand imm
    rw [toNat_encodeTwoRegs hd ha (by omega), hlow]
    simp [numberOfForm, Config.opcodeMap]
  case not d a =>
    obtain ⟨hd, ha, rfl⟩ := h
    rw [toNat_encodeTwoRegs hd ha (by decide)]
    simp [numberOfForm, Config.opcodeMap]
  case ld r off | st r off | ldi r off | sti r off | lea r off =>
    obtain ⟨hr, -, rfl⟩ := h
    rw [toNat_regAndOffset hr]
    simp [numberOfForm, Config.opcodeMap]
  case ldr r b off | str r b off =>
    obtain ⟨hr, hb, -, rfl⟩ := h
    have hlow := toNat_pack (v := off) (N := 6) (by decide)
    rw [toNat_encodeTwoRegs hr hb (by omega), hlow]
    simp [numberOfForm, Config.opcodeMap]
  case br n z p off =>
    obtain ⟨-, rfl⟩ := h
    exact toNat_brWord n z p off
  case jmp b =>
    obtain ⟨hb, rfl⟩ := h
    have hplace := toNat_place hb (lo := 6) (by decide)
    unfold RegInRange at hb
    rw [toNat_or_of_dvd_of_lt 12 (by decide) (by omega), Int.natCast_add, hplace]
    rfl
  case trap v =>
    obtain ⟨hv, rfl⟩ := h
    rcases hv with rfl | rfl | rfl <;> decide

/-! ## Decoding an encoded word -/

/-- A register index of an operand's value; of one out of range, its low three bits. -/
def regOfInt (r : Int) : RegIdx := (BitVec.ofInt 3 r).toFin

/-- The term with a form's operands, the inverse of `Instr.form` on operands in range. -/
def termOfForm : Form → Instr
  | .addr d a b => .addReg (regOfInt d) (regOfInt a) (regOfInt b)
  | .addi d a imm => .addImm (regOfInt d) (regOfInt a) (BitVec.ofInt 5 imm)
  | .andr d a b => .andReg (regOfInt d) (regOfInt a) (regOfInt b)
  | .andi d a imm => .andImm (regOfInt d) (regOfInt a) (BitVec.ofInt 5 imm)
  | .not d a => .notReg (regOfInt d) (regOfInt a)
  | .ld r off => .ld (regOfInt r) (BitVec.ofInt 9 off)
  | .st r off => .st (regOfInt r) (BitVec.ofInt 9 off)
  | .ldi r off => .ldi (regOfInt r) (BitVec.ofInt 9 off)
  | .sti r off => .sti (regOfInt r) (BitVec.ofInt 9 off)
  | .lea r off => .lea (regOfInt r) (BitVec.ofInt 9 off)
  | .ldr r b off => .ldr (regOfInt r) (regOfInt b) (BitVec.ofInt 6 off)
  | .str r b off => .str (regOfInt r) (regOfInt b) (BitVec.ofInt 6 off)
  | .br n z p off => .br n z p (BitVec.ofInt 9 off)
  | .jmp b => .jmp (regOfInt b)
  | .trap v => decodeTrap (BitVec.ofInt 8 v)

theorem val_regOfInt {r : Int} (hr : RegInRange r) : ((regOfInt r).val : Int) = r := by
  unfold RegInRange at hr
  simp [regOfInt]
  omega

theorem regOfInt_val (r : RegIdx) : regOfInt r.val = r := by
  rw [Fin.ext_iff, ← Int.natCast_inj, val_regOfInt (by unfold RegInRange; omega)]

theorem regField_eq_regOfInt {w : Word} {r : Int} (lo : Nat) (h : (w.toNat : Int) / (2 ^ lo : Nat) % 8 = r) :
    regField w lo = regOfInt r := by
  have hr : RegInRange r := by unfold RegInRange; omega
  rw [Fin.ext_iff, ← Int.natCast_inj, val_regOfInt hr, val_regField, ← h]
  simp

theorem imm5Field_eq_ofInt {w : Word} {v : Int} (h : (w.toNat : Int) % 32 = v % 32) : imm5Field w = BitVec.ofInt 5 v := by
  apply BitVec.eq_of_toNat_eq
  rw [toNat_imm5Field, BitVec.toNat_ofInt]
  omega

theorem offset6Field_eq_ofInt {w : Word} {v : Int} (h : (w.toNat : Int) % 64 = v % 64) :
    offset6Field w = BitVec.ofInt 6 v := by
  apply BitVec.eq_of_toNat_eq
  rw [toNat_offset6Field, BitVec.toNat_ofInt]
  omega

theorem offset9Field_eq_ofInt {w : Word} {v : Int} (h : (w.toNat : Int) % 512 = v % 512) :
    offset9Field w = BitVec.ofInt 9 v := by
  apply BitVec.eq_of_toNat_eq
  rw [toNat_offset9Field, BitVec.toNat_ofInt]
  omega

theorem getLsbD_eq_of_mod {w : Word} {k : Nat} {b : Bool} (h : w.toNat / 2 ^ k % 2 = b.toNat) : w.getLsbD k = b := by
  rw [getLsbD_eq_decide, h]
  cases b <;> rfl

theorem decode_of_encodeForm {f : Form} {w : Word} (h : encodeForm f = .ok w) : decode w = termOfForm f := by
  have hrange : FormInRange f := (encodeForm_gives_word_iff f).mp ⟨w, h⟩
  have hnum := toNat_of_encodeForm h
  rw [decode_of_opcode _ (opcodeField_of_encodeForm h)]
  cases f
  all_goals simp only [FormInRange, RegInRange] at hrange
  all_goals simp only [numberOfForm] at hnum
  all_goals simp only [mnemonicOfForm, decodeAs, termOfForm]
  case addr d a b | andr d a b =>
    have hbit : w.getLsbD 5 = false := getLsbD_eq_of_mod (by simp; omega)
    rw [hbit, regField_eq_regOfInt 9 (r := d) (by omega), regField_eq_regOfInt 6 (r := a) (by omega),
      regField_eq_regOfInt 0 (r := b) (by omega)]
    rfl
  case addi d a imm | andi d a imm =>
    have hbit : w.getLsbD 5 = true := getLsbD_eq_of_mod (by simp; omega)
    rw [hbit, regField_eq_regOfInt 9 (r := d) (by omega), regField_eq_regOfInt 6 (r := a) (by omega),
      imm5Field_eq_ofInt (v := imm) (by omega)]
    rfl
  case not d a =>
    rw [regField_eq_regOfInt 9 (r := d) (by omega), regField_eq_regOfInt 6 (r := a) (by omega)]
  case ld r off | st r off | ldi r off | sti r off | lea r off =>
    rw [regField_eq_regOfInt 9 (r := r) (by omega), offset9Field_eq_ofInt (v := off) (by omega)]
  case ldr r b off | str r b off =>
    rw [regField_eq_regOfInt 9 (r := r) (by omega), regField_eq_regOfInt 6 (r := b) (by omega),
      offset6Field_eq_ofInt (v := off) (by omega)]
  case br n z p off =>
    have hn := Bool.toNat_le n
    have hz := Bool.toNat_le z
    have hp := Bool.toNat_le p
    rw [getLsbD_eq_of_mod (k := 11) (b := n) (by simp; omega), getLsbD_eq_of_mod (k := 10) (b := z) (by simp; omega),
      getLsbD_eq_of_mod (k := 9) (b := p) (by simp; omega), offset9Field_eq_ofInt (v := off) (by omega)]
  case jmp b => rw [regField_eq_regOfInt 6 (r := b) (by omega)]
  case trap v =>
    congr 1
    apply BitVec.eq_of_toNat_eq
    rw [toNat_trapvect8Field, BitVec.toNat_ofInt]
    omega

/-! ## Terms and forms -/

theorem form_decodeTrap {v : Int} (hv : v = 0x21 ∨ v = 0x23 ∨ v = 0x25) :
    (decodeTrap (BitVec.ofInt 8 v)).form = .ok (.trap v) := by
  rcases hv with rfl | rfl | rfl <;> rfl

/-- A signed operand that fits the field is the value of its bits. -/
theorem toInt_ofInt_of_range {N : Nat} {v : Int} (hN : 0 < N) (h : -(2 ^ (N - 1)) ≤ v ∧ v ≤ 2 ^ (N - 1) - 1) :
    (BitVec.ofInt N v).toInt = v :=
  BitVec.toInt_ofInt_eq_self hN h.1 (by omega)

theorem form_termOfForm {f : Form} (hf : FormInRange f) : (termOfForm f).form = .ok f := by
  cases f
  case trap v => exact form_decodeTrap hf
  case addr d a b | andr d a b =>
    obtain ⟨hd, ha, hb⟩ := hf
    simp [termOfForm, Instr.form, val_regOfInt, hd, ha, hb]
  case addi d a imm | andi d a imm =>
    obtain ⟨hd, ha, himm⟩ := hf
    simp [termOfForm, Instr.form, val_regOfInt, hd, ha, toInt_ofInt_of_range (N := 5) (by decide) himm]
  case not d a =>
    obtain ⟨hd, ha⟩ := hf
    simp [termOfForm, Instr.form, val_regOfInt, hd, ha]
  case ld r off | st r off | ldi r off | sti r off | lea r off =>
    obtain ⟨hr, hoff⟩ := hf
    simp [termOfForm, Instr.form, val_regOfInt, hr, toInt_ofInt_of_range (N := 9) (by decide) hoff]
  case ldr r b off | str r b off =>
    obtain ⟨hr, hb, hoff⟩ := hf
    simp [termOfForm, Instr.form, val_regOfInt, hr, hb, toInt_ofInt_of_range (N := 6) (by decide) hoff]
  case br n z p off => simp [termOfForm, Instr.form, toInt_ofInt_of_range (N := 9) (by decide) hf]
  case jmp b => simp [termOfForm, Instr.form, val_regOfInt hf]

/-- The plain TRAP term is well formed for the vectors that have no term of their own, so the form of a well-formed term
gives the term back (log 10). -/
theorem termOfForm_form {i : Instr} {f : Form} (hi : i.wf = true) (hf : i.form = .ok f) : termOfForm f = i := by
  cases i
  case trap v =>
    cases hf
    have hplain : v ≠ 0x21#8 ∧ v ≠ 0x23#8 ∧ v ≠ 0x25#8 := by
      simpa [Instr.wf, Instr.trapIsPlain, legalTrapVectors] using hi
    simp [termOfForm, decodeTrap, hplain]
  case illegal4 | illegal8 | illegalD => cases hf
  all_goals
    cases hf
    simp [termOfForm, regOfInt_val, decodeTrap]

theorem encode_eq_ok_iff {i : Instr} {w : Word} : encode i = .ok w ↔ ∃ f, i.form = .ok f ∧ encodeForm f = .ok w := by
  unfold encode
  cases i.form with
  | error op => simp
  | ok f => cases h : encodeForm f <;> simp [h]

theorem decode_of_encode {i : Instr} {w : Word} (hi : i.wf = true) (h : encode i = .ok w) : decode w = i := by
  obtain ⟨f, hf, hw⟩ := encode_eq_ok_iff.mp h
  exact (decode_of_encodeForm hw).trans (termOfForm_form hi hf)

theorem encode_total (i : Instr) : EncodeTotal.Statement i := by
  cases i with
  | br n z p off => exact EncodeTotal.br n z p off
  | addReg d a b => exact EncodeTotal.addReg d a b
  | addImm d a imm => exact EncodeTotal.addImm d a imm
  | ld d off => exact EncodeTotal.ld d off
  | st r off => exact EncodeTotal.st r off
  | andReg d a b => exact EncodeTotal.andReg d a b
  | andImm d a imm => exact EncodeTotal.andImm d a imm
  | ldr d b off => exact EncodeTotal.ldr d b off
  | str r b off => exact EncodeTotal.str r b off
  | notReg d a => exact EncodeTotal.notReg d a
  | ldi d off => exact EncodeTotal.ldi d off
  | sti r off => exact EncodeTotal.sti r off
  | jmp b => exact EncodeTotal.jmp b
  | lea d off => exact EncodeTotal.lea d off
  | trap v => exact EncodeTotal.trap v
  | trapOut => exact EncodeTotal.trapOut
  | trapGetc => exact EncodeTotal.trapGetc
  | trapHalt => exact EncodeTotal.trapHalt
  | illegal4 => exact EncodeTotal.illegal4
  | illegal8 => exact EncodeTotal.illegal8
  | illegalD => exact EncodeTotal.illegalD

theorem encodable_of_not_trap_or_illegal {i : Instr} (htrap : ∀ v, i ≠ .trap v) (h4 : i ≠ .illegal4)
    (h8 : i ≠ .illegal8) (hD : i ≠ .illegalD) : encodable i = true := by
  cases i
  case trap v => exact absurd rfl (htrap v)
  case illegal4 => exact absurd rfl h4
  case illegal8 => exact absurd rfl h8
  case illegalD => exact absurd rfl hD
  all_goals rfl

/-- Settles O39: an encoded word decodes to the term of its form, and the form of a well-formed term gives that term
back. -/
theorem decodeOfEncodeIsIdentity : Obligations.DecodeOfEncodeIsIdentity :=
  fun i hi => ⟨fun _ => decode_of_encode hi,
    fun htrap h4 h8 hD => (encode_total i).mpr (encodable_of_not_trap_or_illegal htrap h4 h8 hD)⟩

/-! ## Canonical words -/

theorem canonical_of_encodeForm {f : Form} {w : Word} (h : encodeForm f = .ok w) : CanonicalWord w := by
  have hrange : FormInRange f := (encodeForm_gives_word_iff f).mp ⟨w, h⟩
  have hnum := toNat_of_encodeForm h
  unfold CanonicalWord
  cases f
  case br n z p off =>
    have hn := Bool.toNat_le n
    have hz := Bool.toNat_le z
    have hp := Bool.toNat_le p
    simp only [numberOfForm] at hnum
    omega
  all_goals
    simp only [FormInRange, RegInRange] at hrange
    simp only [numberOfForm] at hnum
    omega

/-! ### The fields of a canonical word add up to it -/

/-- The signed value of a field's bits is their number modulo 2^N. -/
theorem toInt_emod_two_pow {N : Nat} (f : BitVec N) : f.toInt % (2 ^ N : Nat) = f.toNat := by
  rw [BitVec.toInt_eq_toNat_bmod, Int.bmod_emod]
  exact_mod_cast Nat.mod_eq_of_lt f.isLt

theorem toInt_imm5Field_emod (w : Word) : (imm5Field w).toInt % 32 = w.toNat % 32 := by
  simpa [toNat_imm5Field] using toInt_emod_two_pow (imm5Field w)

theorem toInt_offset6Field_emod (w : Word) : (offset6Field w).toInt % 64 = w.toNat % 64 := by
  simpa [toNat_offset6Field] using toInt_emod_two_pow (offset6Field w)

theorem toInt_offset9Field_emod (w : Word) : (offset9Field w).toInt % 512 = w.toNat % 512 := by
  simpa [toNat_offset9Field] using toInt_emod_two_pow (offset9Field w)

theorem toNat_getLsbD (w : Word) (k : Nat) : (w.getLsbD k).toNat = w.toNat / 2 ^ k % 2 := Nat.toNat_testBit ..

theorem eq_of_toNat_legal {v : BitVec 8} (hv : v.toNat = 0x21 ∨ v.toNat = 0x23 ∨ v.toNat = 0x25) :
    v = 0x21#8 ∨ v = 0x23#8 ∨ v = 0x25#8 := by
  simpa [BitVec.toNat_eq] using hv

theorem form_decodeTrap_legal {v : BitVec 8} (hv : v.toNat = 0x21 ∨ v.toNat = 0x23 ∨ v.toNat = 0x25) :
    (decodeTrap v).form = .ok (.trap v.toNat) := by
  rcases eq_of_toNat_legal hv with rfl | rfl | rfl <;> rfl

theorem assigned_of_canonical {w : Word} (hc : CanonicalWord w) : ∃ m, opcodeField w = Config.opcodeMap m := by
  refine (opcode_cases w).resolve_right fun hnone => ?_
  have hop := Config.mnemonicOf_eq_none.mp hnone
  simp only [opcodeField_eq_iff] at hop
  obtain ⟨⟨h4, h8, hD⟩, -⟩ := hc
  exact hop.elim h4 (Or.rec h8 hD)

theorem encodable_decode_of_canonical {w : Word} (hc : CanonicalWord w) : encodable (decode w) = true := by
  obtain ⟨m, hm⟩ := assigned_of_canonical hc
  obtain ⟨-, -, -, -, htrap⟩ := hc
  rw [decode_of_opcode m hm]
  cases m
  case trap =>
    have hv := (htrap ((opcodeField_eq_iff w _).mp hm)).2
    rw [← toNat_trapvect8Field] at hv
    rw [decodeAs]
    rcases eq_of_toNat_legal hv with h | h | h <;> rw [h] <;> rfl
  case add | and => simp only [decodeAs]; split <;> rfl
  all_goals rfl

/-- A canonical word is the number of its own form: its ignored bits are the encoder's filler. -/
theorem toNat_of_canonical {w : Word} {f : Form} (hc : CanonicalWord w) (hf : (decode w).form = .ok f) :
    (w.toNat : Int) = numberOfForm f := by
  obtain ⟨m, hm⟩ := assigned_of_canonical hc
  obtain ⟨-, hreg, hnot, hjmp, htrap⟩ := hc
  rw [decode_of_opcode m hm] at hf
  have hop := (opcodeField_eq_iff w _).mp hm
  cases m
  all_goals simp only [Config.opcodeMap, BitVec.toNat_ofNat] at hop
  case add | and =>
    simp only [decodeAs, getLsbD_eq_decide, decide_eq_true_eq] at hf
    split at hf
    all_goals
      cases hf
      simp only [numberOfForm, val_regField, toInt_imm5Field_emod]
      omega
  case trap =>
    obtain ⟨hfiller, hv⟩ := htrap hop
    rw [decodeAs, form_decodeTrap_legal (by rwa [toNat_trapvect8Field]), toNat_trapvect8Field] at hf
    cases hf
    simp only [numberOfForm]
    omega
  all_goals
    cases hf
    simp only [numberOfForm, val_regField, toNat_getLsbD, toInt_offset9Field_emod, toInt_offset6Field_emod]
    omega

theorem encode_decode_iff_canonical (w : Word) : encode (decode w) = .ok w ↔ CanonicalWord w := by
  refine ⟨fun h => ?_, fun hc => ?_⟩
  · obtain ⟨f, -, hw⟩ := encode_eq_ok_iff.mp h
    exact canonical_of_encodeForm hw
  · obtain ⟨w', hw'⟩ := (encode_total (decode w)).mpr (encodable_decode_of_canonical hc)
    obtain ⟨f, hf, hencode⟩ := encode_eq_ok_iff.mp hw'
    have hnum : (w'.toNat : Int) = w.toNat := (toNat_of_encodeForm hencode).trans (toNat_of_canonical hc hf).symm
    rw [hw', BitVec.eq_of_toNat_eq (Int.natCast_inj.mp hnum)]

/-! ## Ignored bits (R65) -/

/-- A field keeps its value under a mask that is all ones there. -/
theorem extractLsb'_and_of_ones {w mask : Word} {lo len : Nat} (h : mask.extractLsb' lo len = BitVec.allOnes len) :
    (w &&& mask).extractLsb' lo len = w.extractLsb' lo len := by
  rw [BitVec.extractLsb'_and, h, BitVec.and_allOnes]

theorem regField_and_of_ones {w mask : Word} {lo : Nat} (h : mask.extractLsb' lo 3 = BitVec.allOnes 3) :
    regField (w &&& mask) lo = regField w lo := by
  rw [regField, extractLsb'_and_of_ones h, regField]

/-- No opcode bit is ignored. -/
theorem usedBits_opcode (w : Word) : (usedBits w).extractLsb' 12 4 = BitVec.allOnes 4 := by
  simp only [usedBits]
  split_ifs <;> decide

theorem opcodeField_and_usedBits (w' w : Word) : opcodeField (w' &&& usedBits w) = opcodeField w' :=
  extractLsb'_and_of_ones (usedBits_opcode w)

/-- Nor is the bit that tells the two forms of ADD and AND apart. -/
theorem usedBits_formBit {w : Word} (h : w.toNat / 4096 = 0x1 ∨ w.toNat / 4096 = 0x5) :
    (usedBits w).getLsbD 5 = true := by
  by_cases hform : w.toNat / 32 % 2 = 0
  · simp [usedBits, h, hform]
  · rcases h with h | h <;> simp [usedBits, h, hform]

/-- Words that agree on the bits one of them uses, use the same bits. -/
theorem usedBits_eq_of_and_eq {w w' : Word} (h : w &&& usedBits w = w' &&& usedBits w) : usedBits w' = usedBits w := by
  have hop : w'.toNat / 4096 = w.toNat / 4096 := by
    rw [← toNat_opcodeField, ← opcodeField_and_usedBits w' w, ← h, opcodeField_and_usedBits, toNat_opcodeField]
  have hform : (w.toNat / 4096 = 0x1 ∨ w.toNat / 4096 = 0x5) → w'.toNat / 32 % 2 = w.toNat / 32 % 2 := fun hop' => by
    have hbit := congrArg (fun x => (x.getLsbD 5).toNat) h
    simp only [BitVec.getLsbD_and, usedBits_formBit hop', Bool.and_true, toNat_getLsbD] at hbit
    exact hbit.symm
  simp only [usedBits, hop]
  rw [if_congr (and_congr_right fun hop' => by rw [hform hop']) rfl rfl]

/-- No handler reads an ignored bit of its word. -/
theorem decodeAs_and_usedBits {w : Word} {m : Mnemonic} (hm : opcodeField w = Config.opcodeMap m) :
    decodeAs m (w &&& usedBits w) = decodeAs m w := by
  have hop := (opcodeField_eq_iff w _).mp hm
  have hfull : w &&& 0xFFFF#16 = w := BitVec.and_allOnes
  cases m
  all_goals simp only [Config.opcodeMap, BitVec.toNat_ofNat, Nat.reducePow, Nat.reduceMod] at hop
  case add | and =>
    by_cases hform : w.toNat / 32 % 2 = 0
    · have hmask : usedBits w = 0xFFE7#16 := by simp [usedBits, hop, hform]
      have hbit : w.getLsbD 5 = false := getLsbD_eq_of_mod hform
      simp only [decodeAs, hmask, BitVec.getLsbD_and, hbit, Bool.false_and, Bool.false_eq_true, if_false]
      rw [regField_and_of_ones (by decide), regField_and_of_ones (by decide), regField_and_of_ones (by decide)]
    · have hmask : usedBits w = 0xFFFF#16 := by simp [usedBits, hop, hform]
      rw [hmask, hfull]
  case not =>
    have hmask : usedBits w = 0xFFC0#16 := by simp [usedBits, hop]
    rw [decodeAs, hmask, regField_and_of_ones (by decide), regField_and_of_ones (by decide), decodeAs]
  case jmp =>
    have hmask : usedBits w = 0xF1C0#16 := by simp [usedBits, hop]
    rw [decodeAs, hmask, regField_and_of_ones (by decide), decodeAs]
  case trap =>
    have hmask : usedBits w = 0xF0FF#16 := by simp [usedBits, hop]
    rw [decodeAs, hmask, trapvect8Field, extractLsb'_and_of_ones (by decide), decodeAs, trapvect8Field]
  all_goals
    have hmask : usedBits w = 0xFFFF#16 := by simp [usedBits, hop]
    rw [hmask, hfull]

theorem decode_and_usedBits (w : Word) : decode (w &&& usedBits w) = decode w := by
  have hop := opcodeField_and_usedBits w w
  rcases opcode_cases w with ⟨m, hm⟩ | hnone
  · rw [decode_of_opcode m (hop.trans hm), decode_of_opcode m hm, decodeAs_and_usedBits hm]
  · rw [decode_of_unassigned (hop.symm ▸ hnone), decode_of_unassigned hnone, hop]

/-- Settles O38: an encoded word is the number of its form, whose fields the decoder reads back; a canonical word is
the number of its own form; and the decoder reads no ignored bit. -/
theorem roundTripLaws : Obligations.RoundTripLaws := by
  refine ⟨fun f w h => ?_, encode_decode_iff_canonical, fun w w' hbits => ?_⟩
  · rw [decode_of_encodeForm h, form_termOfForm ((encodeForm_gives_word_iff f).mp ⟨w, h⟩)]
  · have hdecode : decode w = decode w' := by
      rw [← decode_and_usedBits w, hbits, ← usedBits_eq_of_and_eq hbits, decode_and_usedBits w']
    exact ⟨hdecode, fun s => by rw [hdecode]⟩

/-! ## OPCODE_MAP and its gaps (R58, R59) -/

theorem opcodeMap_injective {m m' : Mnemonic} (h : Config.opcodeMap m = Config.opcodeMap m') : m = m' :=
  Option.some.inj ((Config.mnemonicOf_eq_some.mpr h).symm.trans (Config.mnemonicOf_eq_some.mpr rfl))

theorem unmapped_iff {op : BitVec 4} : (∀ m, Config.opcodeMap m ≠ op) ↔ op ∈ [0x4#4, 0x8#4, 0xD#4] := by
  have hnone : Config.mnemonicOf op = none ↔ op ∈ [0x4#4, 0x8#4, 0xD#4] := by simp [Config.mnemonicOf_eq_none]
  rw [← hnone]
  exact ⟨mnemonicOf_eq_none_of_unmapped, fun h m hm => by simp [Config.mnemonicOf_eq_some.mpr hm] at h⟩

/-- An illegal term is the decoding of its own opcode alone; a mnemonic's opcode gives none. -/
theorem decode_eq_illegal_iff (w : Word) :
    (decode w = .illegal4 ↔ opcodeField w = 0x4#4) ∧ (decode w = .illegal8 ↔ opcodeField w = 0x8#4) ∧
      (decode w = .illegalD ↔ opcodeField w = 0xD#4) := by
  rcases opcode_cases w with ⟨m, hm⟩ | hnone
  · have hop : opcodeField w ∉ [0x4#4, 0x8#4, 0xD#4] := fun h => unmapped_iff.mpr h m hm.symm
    have htrap : ∀ v, decodeTrap v ≠ .illegal4 ∧ decodeTrap v ≠ .illegal8 ∧ decodeTrap v ≠ .illegalD := by decide
    simp only [List.mem_cons, List.not_mem_nil, not_or] at hop
    rw [decode_of_opcode m hm]
    cases m
    case trap => simp [decodeAs, hop, htrap]
    case add | and => simp only [decodeAs]; split <;> simp [hop]
    all_goals simp [decodeAs, hop]
  · rw [decode_of_unassigned hnone]
    rcases Config.mnemonicOf_eq_none.mp hnone with h | h | h <;> rw [h] <;> decide

/-- Settles O41: by the inverse of OPCODE_MAP, the decoder's split on it, and the opcode each encoder function writes. -/
theorem opcodeMapAndItsGaps : Obligations.OpcodeMapAndItsGaps := by
  refine ⟨fun _ _ => opcodeMap_injective, rfl, fun _ => unmapped_iff, decode_eq_illegal_iff, fun f w h hgap => ?_⟩
  rw [opcodeField_of_encodeForm h] at hgap
  exact unmapped_iff.mpr hgap _ rfl

/-- Settles O40: each word is decoded field by field. -/
theorem wordsOfTheFormats : Obligations.WordsOfTheFormats := by
  refine ⟨?_, ?_, ?_, ?_, ?_, ?_, ?_, ?_, ?_, ?_⟩ <;> decide

end Sys2Proof.Machine
end

section
/-! SUPPORT. Proofs of the statements that each instruction completes, with its result and its frame (R96 to R115). -/

namespace Sys2Proof.Machine

variable {s t : State} {i : Instr}

/-! ## The frames, once for each kind of next state -/

/-- A handler that advances and writes one register leaves everything else. -/
theorem completes_of_setReg {d : RegIdx} {v : Word} (hpc : s.pc ≠ 0xFFFF#16)
    (h : exec i s = .next ((s.setPc (s.pc + 1#16)).setReg d v)) :
    ∃ t, exec i s = .next t ∧ t.reg d = v ∧ t.pc.toNat = s.pc.toNat + 1 ∧ OnlyRegisterAndPc d s t := by
  refine ⟨_, h, State.reg_setReg_same .., toNat_pc_succ hpc, fun r hr => ?_, rfl, rfl, rfl, rfl, rfl⟩
  rw [State.reg_setReg_of_ne _ _ _ hr, State.setPc_reg]

/-- A handler that advances and stores one word leaves everything outside its cell. -/
theorem completes_of_store {a v : Word} (hpc : s.pc ≠ 0xFFFF#16)
    (h : exec i s = .next ((s.setPc (s.pc + 1#16)).store a v)) :
    ∃ t, exec i s = .next t ∧ t.mem.read a = v ∧ t.pc.toNat = s.pc.toNat + 1 ∧ OnlyCellAndPc a s t := by
  refine ⟨_, h, Memory.read_write_same .., toNat_pc_succ hpc, fun _ => rfl, rfl, rfl, rfl, rfl, fun b h0 h1 => ?_⟩
  exact Memory.readByte_write_of_ne _ _ _ _ h0 h1

theorem onlyPc_setPc (s : State) (target : Word) : OnlyPc s (s.setPc target) :=
  ⟨fun _ => rfl, rfl, rfl, rfl, rfl, rfl⟩

/-! ## Operands -/

/-- Sign extension repeats the field's highest bit (R9). -/
theorem getLsbD_sext16 {N : Nat} (f : BitVec N) {k : Nat} (hk : k < 16) :
    (sext16 f).getLsbD k = f.getLsbD (min k (N - 1)) := by
  rw [sext16, BitVec.getLsbD_signExtend]
  by_cases hlt : k < N
  · simp [hk, hlt, show min k (N - 1) = k by omega]
  · simp [hk, hlt, show min k (N - 1) = N - 1 by omega, BitVec.msb_eq_getLsbD_last]

theorem toNat_pcRelative (s : State) (off : BitVec 9) :
    ((pcRelative s off).toNat : Int) = (s.pc.toNat + sextInt 9 off.toNat) % 65536 := by
  rw [pcRelative, sext16_eq_sextInt (by decide), toNat_add_ofInt]

/-- The five low bits of an offset are its signed value, 32 less or more outside -16 to 15 (C2, log 3). -/
theorem toInt_setWidth_five (off : BitVec 6) : (off.setWidth 5).toInt =
    if 16 ≤ off.toInt then off.toInt - 32 else if off.toInt < -16 then off.toInt + 32 else off.toInt := by
  have hlt := off.isLt
  simp only [BitVec.toInt_eq_toNat_cond, BitVec.toNat_setWidth]
  omega

theorem toNat_strAddress (s : State) (b : RegIdx) (off : BitVec 6) :
    ((strAddress s b off).toNat : Int) = ((s.reg b).toNat + (off.setWidth 5).toInt) % 65536 := by
  rw [strAddress, strOffset, sext16_eq_ofInt, toNat_add_ofInt]

/-- Settles O20: each address is a sum with a sign-extended field, and STR's field has the low five bits alone. -/
theorem storeAddresses : Obligations.StoreAddresses := by
  refine ⟨toNat_pcRelative, fun s b off => ?_, fun off => ?_⟩
  · rw [toNat_strAddress, toInt_setWidth_five, sextInt_toNat (by decide)]
  · rw [strOffset, BitVec.setWidth_eq, sext16_eq_sextInt (by decide)]

/-! ## ADD, AND and NOT -/

theorem addReg_completes (d a b : RegIdx) (hpc : s.pc ≠ 0xFFFF#16) :
    ∃ t, exec (.addReg d a b) s = .next t ∧ t.reg d = s.reg a + s.reg b ∧ t.pc.toNat = s.pc.toNat + 1 ∧
      OnlyRegisterAndPc d s t :=
  completes_of_setReg hpc (execAddReg_next_iff.mpr ⟨hpc, rfl⟩)

theorem addImm_completes (d a : RegIdx) (imm : BitVec 5) (hpc : s.pc ≠ 0xFFFF#16) :
    ∃ t, exec (.addImm d a imm) s = .next t ∧ t.reg d = s.reg a + sext16 imm ∧ t.pc.toNat = s.pc.toNat + 1 ∧
      OnlyRegisterAndPc d s t :=
  completes_of_setReg hpc (execAddImm_next_iff.mpr ⟨hpc, rfl⟩)

theorem andReg_completes (d a b : RegIdx) (hpc : s.pc ≠ 0xFFFF#16) :
    ∃ t, exec (.andReg d a b) s = .next t ∧ t.reg d = s.reg a &&& s.reg b ∧ t.pc.toNat = s.pc.toNat + 1 ∧
      OnlyRegisterAndPc d s t :=
  completes_of_setReg hpc (execAndReg_next_iff.mpr ⟨hpc, rfl⟩)

theorem andImm_completes (d a : RegIdx) (imm : BitVec 5) (hpc : s.pc ≠ 0xFFFF#16) :
    ∃ t, exec (.andImm d a imm) s = .next t ∧ t.reg d = s.reg a &&& sext16 imm ∧ t.pc.toNat = s.pc.toNat + 1 ∧
      OnlyRegisterAndPc d s t :=
  completes_of_setReg hpc (execAndImm_next_iff.mpr ⟨hpc, rfl⟩)

theorem notReg_completes (d a : RegIdx) (hpc : s.pc ≠ 0xFFFF#16) :
    ∃ t, exec (.notReg d a) s = .next t ∧ t.reg d = ~~~(s.reg a) ∧ t.pc.toNat = s.pc.toNat + 1 ∧
      OnlyRegisterAndPc d s t :=
  completes_of_setReg hpc (execNot_next_iff.mpr ⟨hpc, rfl⟩)

/-- Settles O15: by ADD's next state; the sum is taken modulo 2^16. -/
theorem addCompletes : Obligations.AddCompletes := by
  refine fun s d a hpc => ⟨fun b => ?_, fun imm => ?_⟩
  · obtain ⟨t, ht, hv, hframe⟩ := addReg_completes d a b hpc
    exact ⟨t, ht, by rw [hv, BitVec.toNat_add], hframe⟩
  · obtain ⟨t, ht, hv, hframe⟩ := addImm_completes d a imm hpc
    exact ⟨t, ht, by rw [hv, sext16_eq_sextInt (by decide), toNat_add_ofInt], hframe⟩

/-- Settles O16: by AND's next state, bit by bit. -/
theorem andCompletes : Obligations.AndCompletes := by
  refine fun s d a hpc => ⟨fun b => ?_, fun imm => ?_⟩
  · obtain ⟨t, ht, hv, hframe⟩ := andReg_completes d a b hpc
    exact ⟨t, ht, fun k _ => by rw [hv, BitVec.getLsbD_and], hframe⟩
  · obtain ⟨t, ht, hv, hframe⟩ := andImm_completes d a imm hpc
    exact ⟨t, ht, fun k hk => by rw [hv, BitVec.getLsbD_and, getLsbD_sext16 imm hk], hframe⟩

/-- Settles O17: by NOT's next state. -/
theorem notCompletes : Obligations.NotCompletes := by
  intro s d a hpc
  obtain ⟨t, ht, hv, hframe⟩ := notReg_completes d a hpc
  exact ⟨t, ht, by rw [hv, BitVec.toNat_not], hframe⟩

theorem toInt_add_sub_emod (x y : Word) : ((x + y).toInt - (x.toInt + y.toInt)) % 65536 = 0 := by
  have hx := x.isLt
  have hy := y.isLt
  simp only [BitVec.toInt_eq_toNat_cond, BitVec.toNat_add]
  omega

/-- Two's complement: the complement plus one is the negation (R99). -/
theorem toNat_add_not_add_one (x y : Word) : ((x + (~~~y + 1#16)).toNat : Int) = (x.toNat - y.toNat) % 65536 := by
  have hx := x.isLt
  have hy := y.isLt
  simp only [BitVec.toNat_add, BitVec.toNat_not, BitVec.toNat_ofNat]
  omega

theorem subtraction_completes (d a b u : RegIdx) (hu : u ≠ a) (hpc : s.pc.toNat + 3 ≤ 0xFFFF) :
    ∃ s1 s2 s3, exec (.notReg u b) s = .next s1 ∧ exec (.addImm u u 1#5) s1 = .next s2 ∧
      exec (.addReg d a u) s2 = .next s3 ∧ s3.reg d = s.reg a + (~~~(s.reg b) + 1#16) := by
  have ne_top {s : State} (h : s.pc.toNat < 0xFFFF) : s.pc ≠ 0xFFFF#16 := fun hs => by simp [hs] at h
  obtain ⟨s1, h1, hv1, hpc1, hframe1, -⟩ := notReg_completes (s := s) u b (ne_top (by omega))
  obtain ⟨s2, h2, hv2, hpc2, hframe2, -⟩ := addImm_completes (s := s1) u u 1#5 (ne_top (by omega))
  obtain ⟨s3, h3, hv3, -⟩ := addReg_completes (s := s2) d a u (ne_top (by omega))
  have hone : sext16 1#5 = 1#16 := by decide
  refine ⟨s1, s2, s3, h1, h2, h3, ?_⟩
  rw [hv3, hframe2 a hu.symm, hframe1 a hu.symm, hv2, hv1, hone]

/-- Settles O36: by the results of ADD, AND and NOT; the subtraction runs its three instructions in turn. -/
theorem arithmeticLaws : Obligations.ArithmeticLaws := by
  refine ⟨fun s d a b hpc => ?_, fun s d a b u hu hpc => ?_, fun s d a b k hpc hk => ⟨?_, ?_⟩⟩
  · obtain ⟨t, ht, hv, -, -, hcc, hhalted, -⟩ := addReg_completes d a b hpc
    exact ⟨t, ht, by rw [hv, BitVec.toNat_add], by rw [hv, toInt_add_sub_emod], hcc, hhalted⟩
  · obtain ⟨s1, s2, s3, h1, h2, h3, hv⟩ := subtraction_completes d a b u hu hpc
    exact ⟨s1, s2, s3, h1, h2, h3, by rw [hv, toNat_add_not_add_one]⟩
  · obtain ⟨t, ht, hv, -⟩ := andReg_completes d a b hpc
    exact ⟨t, ht, by rw [hv, BitVec.getLsbD_and]⟩
  · obtain ⟨t, ht, hv, -⟩ := notReg_completes d a hpc
    exact ⟨t, ht, by rw [hv, BitVec.getLsbD_not, decide_eq_true hk, Bool.true_and]⟩

/-! ## Loads, stores and LEA -/

theorem toNat_ofInt_word (v : Int) : ((BitVec.ofInt 16 v).toNat : Int) = v % 65536 := by
  simp [BitVec.toNat_ofInt]
  omega

/-- Settles O18: by each load's next state, with its address written out. -/
theorem loadsComplete : Obligations.LoadsComplete := by
  refine fun s d hpc => ⟨fun off => ?_, fun b off => ?_, fun off => ?_⟩
  · rw [← pcRelative_advanced hpc]
    exact completes_of_setReg hpc (execLd_next_iff.mpr ⟨hpc, rfl⟩)
  · rw [← baseOffset_eq]
    exact completes_of_setReg hpc (execLdr_next_iff.mpr ⟨hpc, rfl⟩)
  · obtain ⟨t, ht, hv, hframe⟩ := completes_of_setReg (i := .lea d off) hpc (execLea_next_iff.mpr ⟨hpc, rfl⟩)
    exact ⟨t, ht, by rw [hv, pcRelative_advanced hpc, toNat_ofInt_word], hframe⟩

/-- Settles O19: by each store's next state. -/
theorem storesComplete : Obligations.StoresComplete :=
  fun _ _ hpc => ⟨fun _ => completes_of_store hpc (execSt_next_iff.mpr ⟨hpc, rfl⟩),
    fun _ _ => completes_of_store hpc (execStr_next_iff.mpr ⟨hpc, rfl⟩)⟩

/-! ## BR and JMP -/

/-- Settles O21: by BR's next state, taken or not. -/
theorem brCompletes : Obligations.BrCompletes := by
  intro s n z p off hpc
  refine ⟨_, execBr_next_iff.mpr ⟨hpc, rfl⟩, onlyPc_setPc .., fun htaken => ?_, fun hnot => ?_⟩
  · rw [if_pos (branchTaken_eq_true.mpr htaken), State.setPc_pc, pcRelative_advanced hpc, toNat_ofInt_word]
  · rw [if_neg (mt branchTaken_eq_true.mp hnot), State.setPc_pc, toNat_pc_succ hpc]

/-- Settles O22: JMP has no advance, and its word gives its base register in bits 8:6. -/
theorem jmpCompletes : Obligations.JmpCompletes := by
  refine ⟨fun s b => ⟨_, execJmp_next_iff.mpr rfl, State.setPc_pc .., onlyPc_setPc ..⟩, fun s b hs hop hb => ?_⟩
  have hfield : regField (s.mem.read s.pc) 6 = b := regField_eq_iff.mpr hb
  rw [step_of_opcode hs .jmp hop, ← hfield]
  exact execJmp_next_iff.mpr rfl

/-! ## TRAP -/

theorem toNat_lowHalf (w : Word) : (lowHalf w).toNat = w.toNat % 256 := by
  simp [lowHalf, BitVec.extractLsb'_toNat]

/-- Settles O23: by OUT's next state. -/
theorem outCompletes : Obligations.OutCompletes :=
  fun _ hpc => ⟨_, serviceOut_next_iff.mpr ⟨hpc, rfl⟩, ⟨_, toNat_lowHalf _, rfl⟩, toNat_pc_succ hpc, fun _ => rfl, rfl, rfl,
    rfl, rfl⟩

/-- A byte zero-extended keeps its value (R10). -/
theorem toNat_zext16_ofNat {c : Nat} (hc : c ≤ 255) : (zext16 (BitVec.ofNat 8 c)).toNat = c := by
  simp [zext16]
  omega

/-- Settles O24: GETC takes the first value up to 255, and holds where there is none. -/
theorem getcCompletesOrHolds : Obligations.GetcCompletesOrHolds := by
  refine ⟨fun s sentinels rest c hpc hinput hs hc => ?_, fun s hnone => ?_⟩
  · have htake : takeByte s.input = some (BitVec.ofNat 8 c, rest) := hinput ▸ takeByte_skip sentinels hs c hc rest
    refine ⟨_, serviceGetc_next_iff.mpr ⟨_, _, htake, hpc, rfl⟩, ?_, rfl, toNat_pc_succ hpc, fun r hr => ?_, rfl, rfl, rfl,
      rfl⟩
    · rw [State.setPc_reg, State.reg_setReg_same, toNat_zext16_ofNat hc]
    · rw [State.setPc_reg, State.reg_setReg_of_ne _ _ _ hr]
      rfl
  · exact serviceGetc_refused_iff.mpr ⟨takeByte_eq_none.mpr hnone, rfl⟩

/-- Settles O26: each service is one branch of the dispatch, and the last branch raises. -/
theorem trapDispatchesOnVector : Obligations.TrapDispatchesOnVector :=
  ⟨fun _ => ⟨rfl, rfl, rfl⟩, fun _ => serviceHalt_next_iff.mpr rfl,
    fun _ hpc => ⟨_, serviceOut_next_iff.mpr ⟨hpc, rfl⟩⟩, fun _ _ hv => execTrap_of_no_service hv⟩

/-! ## The terms that always fault -/

/-- Settles O28: both handlers raise before anything else. -/
theorem ldiAndStiAlwaysFault : Obligations.LdiAndStiAlwaysFault := fun s _ _ => ⟨raise_eq _ s, raise_eq _ s⟩

/-- Settles O29: each handler raises with its own opcode. -/
theorem illegalTermsAlwaysFault : Obligations.IllegalTermsAlwaysFault :=
  fun s => ⟨raise_eq _ s, raise_eq _ s, raise_eq _ s⟩

end Sys2Proof.Machine
end

section
/-! SUPPORT. Proofs of the statements about reset, the invariant and the three ways a step ends (R86 to R92). -/

namespace Sys2Proof.Machine

variable {s t : State}

/-! ## Reset and the invariant -/

/-- Settles O1: by reset's fields; a word of memory that lists nothing is made of two unlisted bytes. -/
theorem resetLeavesSpecValues : Obligations.ResetLeavesSpecValues := by
  refine ⟨rfl, rfl, rfl, rfl, fun a => ?_⟩
  rw [State.reset, Memory.read, Memory.readByte_nil, Memory.readByte_nil]
  decide

/-- Settles O2: reset lists no byte. -/
theorem resetMeetsInvariant : Obligations.ResetMeetsInvariant := Memory.wf_nil

theorem exec_next_inv {i : Instr} (hs : s.Inv) (h : exec i s = .next t) : t.Inv := by
  obtain ⟨_, _, -, rfl⟩ | ⟨a, v, -, rfl⟩ | ⟨_, rfl⟩ | ⟨-, rfl⟩ | ⟨_, _, -, -, rfl⟩ | rfl := exec_next_cases h
  case inr.inl => exact Memory.wf_write a v hs
  all_goals exact hs

/-- Settles O3: of the ways an instruction can complete only a store touches memory, and a cell write keeps the
canonical form. -/
theorem stepKeepsInvariant : Obligations.StepKeepsInvariant :=
  fun _ _ hs h => exec_next_inv hs (step_eq_next h).2

/-- Settles O4: a running machine's step is the dispatch on the fetched word. -/
theorem stepRunsDecodedInstruction : Obligations.StepRunsDecodedInstruction := by
  rintro s i hs rfl
  exact step_of_running hs

/-! ## The pc advance -/

theorem exec_advancesFirst_completes {i : Instr} (hi : advancesFirst i = true) (hpc : s.pc ≠ 0xFFFF#16) :
    ∃ t, exec i s = .next t := by
  obtain ⟨f, hf⟩ := exec_of_advancesFirst hi
  exact ⟨_, (hf s).trans (incPC_of_ne _ hpc)⟩

theorem exec_advancesFirst_next_pc {i : Instr} (hi : advancesFirst i = true) (hbr : ∀ n z p off, i ≠ .br n z p off)
    (h : exec i s = .next t) : t.pc.toNat = s.pc.toNat + 1 := by
  cases i with
  | addReg d a b => obtain ⟨hpc, rfl⟩ := execAddReg_next_iff.mp h; exact toNat_pc_succ hpc
  | addImm d a imm => obtain ⟨hpc, rfl⟩ := execAddImm_next_iff.mp h; exact toNat_pc_succ hpc
  | andReg d a b => obtain ⟨hpc, rfl⟩ := execAndReg_next_iff.mp h; exact toNat_pc_succ hpc
  | andImm d a imm => obtain ⟨hpc, rfl⟩ := execAndImm_next_iff.mp h; exact toNat_pc_succ hpc
  | notReg d a => obtain ⟨hpc, rfl⟩ := execNot_next_iff.mp h; exact toNat_pc_succ hpc
  | ld d off => obtain ⟨hpc, rfl⟩ := execLd_next_iff.mp h; exact toNat_pc_succ hpc
  | st r off => obtain ⟨hpc, rfl⟩ := execSt_next_iff.mp h; exact toNat_pc_succ hpc
  | ldr d b off => obtain ⟨hpc, rfl⟩ := execLdr_next_iff.mp h; exact toNat_pc_succ hpc
  | str r b off => obtain ⟨hpc, rfl⟩ := execStr_next_iff.mp h; exact toNat_pc_succ hpc
  | lea d off => obtain ⟨hpc, rfl⟩ := execLea_next_iff.mp h; exact toNat_pc_succ hpc
  | br n z p off => exact absurd rfl (hbr n z p off)
  | ldi | sti | jmp | trap | trapOut | trapGetc | trapHalt | illegal4 | illegal8 | illegalD => cases hi

/-- Settles O7: a handler that advances first answers one state after the advance; OUT and GETC advance last, JMP and HALT
not at all. -/
theorem advanceFromTopIsFatal : Obligations.AdvanceFromTopIsFatal := by
  refine ⟨fun s i hi hpc => ?first, fun s i hi hpc => ?completes, fun s hpc => ?out, fun s v hpc hv hle => ?getc,
    fun s b _ => execJmp_next_iff.mpr rfl, fun s _ => serviceHalt_next_iff.mpr rfl⟩
  case first => exact (exec_advancesFirst_fault_iff hi).mpr ⟨hpc, by rw [hpc]⟩
  case completes =>
    obtain ⟨t, ht⟩ := exec_advancesFirst_completes hi hpc
    exact ⟨t, ht, fun hbr => exec_advancesFirst_next_pc hi hbr ht⟩
  case out => exact serviceOut_fault_iff.mpr ⟨hpc, by rw [hpc]⟩
  case getc => exact serviceGetc_fault_iff.mpr ⟨takeByte_ne_none.mpr ⟨v, hv, hle⟩, hpc, by rw [hpc]⟩

/-! ## The three ways a step ends -/

theorem execTrap_out : execTrap 0x21#8 s = serviceOut s := rfl

theorem execTrap_getc : execTrap 0x23#8 s = serviceGetc s := rfl

theorem execTrap_halt : execTrap 0x25#8 s = serviceHalt s := rfl

/-- All the ways TRAP can fault: no service for the vector, or a service's own advance from the top (R112, R113, R115). -/
theorem execTrap_fault_iff {v : BitVec 8} {f : Fault} : execTrap v s = .fault f ↔
    (v.toNat ∉ [0x21, 0x23, 0x25] ∧ f = .unimplementedTrap v s.out) ∨
    (s.pc = 0xFFFF#16 ∧
      ((v.toNat = 0x21 ∧ f = .pcOverflow s.pc (s.out ++ [lowHalf (s.reg 0)])) ∨
       (v.toNat = 0x23 ∧ (∃ c ∈ s.input, c ≤ 255) ∧ f = .pcOverflow s.pc s.out))) := by
  by_cases hv : v.toNat ∈ [0x21, 0x23, 0x25]
  · rcases eq_of_toNat_legal (by simpa using hv) with rfl | rfl | rfl
    · simp [execTrap_out, serviceOut_fault_iff]
    · simp [execTrap_getc, serviceGetc_fault_iff, takeByte_ne_none, and_left_comm]
    · simp [execTrap_halt, serviceHalt]
  · rw [execTrap_of_no_service hv]
    simp only [List.mem_cons, List.not_mem_nil, not_or] at hv
    simp [hv, eq_comm]

/-- TRAP waits for input only as GETC (R113). -/
theorem execTrap_refused_iff {v : BitVec 8} {r : Refusal} : execTrap v s = .refused r ↔
    v = 0x23#8 ∧ r = .awaitingInput ∧ ∀ c ∈ s.input, 255 < c := by
  unfold execTrap
  by_cases hout : v = 0x21#8
  · simp [hout, serviceOut_not_refused]
  · by_cases hgetc : v = 0x23#8
    · simp [hgetc, serviceGetc_refused_iff, takeByte_eq_none, and_comm]
    · by_cases hhalt : v = 0x25#8
      · simp [hhalt, serviceHalt]
      · simp [hout, hgetc, hhalt]

/-- Settles O9: by the kinds of step of a running machine, each with its own way to fault, the others excluded by the
opcode. -/
theorem stepFaultsExactlyWhen : Obligations.StepFaultsExactlyWhen := by
  intro s f
  cases hs : s.halted
  case true => simp [step_of_halted hs, eq_comm]
  case false =>
    rcases step_running_cases hs with
      ⟨m, hm, hadv, hfirst, hexec⟩ | ⟨hop, hf⟩ | ⟨hop, hf⟩ | ⟨hop, hjmp⟩ | ⟨hop, htrap⟩ | ⟨hop, hf⟩
    · rw [hexec, exec_advancesFirst_fault_iff hfirst]
      have hop := (opcodeField_eq_iff _ _).mp hm
      obtain ⟨hldi, hsti, hjmp, htrap⟩ := hadv
      cases m
      case ldi => exact absurd rfl hldi
      case sti => exact absurd rfl hsti
      case jmp => exact absurd rfl hjmp
      case trap => exact absurd rfl htrap
      all_goals simp [hop, Config.opcodeMap]
    · simp [hf, (opcodeField_eq_iff _ _).mp hop, eq_comm]
    · simp [hf, (opcodeField_eq_iff _ _).mp hop, eq_comm]
    · simp [hjmp, (opcodeField_eq_iff _ _).mp hop]
    · have hv : BitVec.ofNat 8 ((s.mem.read s.pc).toNat % 256) = trapvect8Field (s.mem.read s.pc) := by
        rw [← toNat_trapvect8Field, BitVec.ofNat_toNat, BitVec.setWidth_eq]
      rw [htrap, execTrap_fault_iff, toNat_trapvect8Field, hv]
      simp [(opcodeField_eq_iff _ _).mp hop]
    · rcases hop with hop | hop | hop
      all_goals simp [hf, hop, (opcodeField_eq_iff _ _).mp hop, eq_comm]

/-! ### Success, fault or hold (R92) -/

/-- An instruction appends at most one byte to the output. -/
theorem exec_next_out {i : Instr} (h : exec i s = .next t) : t.out = s.out ∨ ∃ b, t.out = s.out ++ [b] := by
  obtain ⟨_, _, -, rfl⟩ | ⟨_, _, -, rfl⟩ | ⟨_, rfl⟩ | ⟨-, rfl⟩ | ⟨_, _, -, -, rfl⟩ | rfl := exec_next_cases h
  case inr.inr.inr.inl => exact .inr ⟨_, rfl⟩
  all_goals exact .inl rfl

/-- A fault keeps the output so far; only OUT's overflow adds a byte (log 13). -/
theorem step_fault_out {f : Fault} (h : step s = .fault f) : f.out = s.out ∨ ∃ b, f.out = s.out ++ [b] := by
  obtain ⟨-, rfl⟩ | ⟨-, _, -, -, rfl⟩ | ⟨-, -, -, rfl⟩ | ⟨-, -, -, rfl⟩ |
    ⟨-, -, -, ⟨-, rfl⟩ | ⟨-, -, rfl⟩⟩ := (stepFaultsExactlyWhen s f).mp h
  case inr.inr.inr.inr.inl => exact .inr ⟨_, rfl⟩
  all_goals exact .inl rfl

/-- A step holds only at a word of TRAP 0x23 with no byte delivered (R92c). -/
theorem step_refused {r : Refusal} (h : step s = .refused r) :
    s.halted = false ∧ r = .awaitingInput ∧ opcodeField (s.mem.read s.pc) = 0xF#4 ∧
      trapvect8Field (s.mem.read s.pc) = 0x23#8 ∧ ∀ c ∈ s.input, 255 < c := by
  cases hs : s.halted
  case true => rw [step_of_halted hs] at h; cases h
  case false =>
    rcases step_running_cases hs with
      ⟨_, -, -, hfirst, hexec⟩ | ⟨-, hf⟩ | ⟨-, hf⟩ | ⟨-, hjmp⟩ | ⟨hop, htrap⟩ | ⟨-, hf⟩
    · exact absurd (hexec ▸ h) (exec_advancesFirst_not_refused hfirst)
    · rw [hf] at h; cases h
    · rw [hf] at h; cases h
    · rw [hjmp] at h; cases h
    · obtain ⟨hv, hr, hinput⟩ := execTrap_refused_iff.mp (htrap ▸ h)
      exact ⟨rfl, hr, hop, hv, hinput⟩
    · rw [hf] at h; cases h

/-- The hold ends when the host supplies a byte (log 9). -/
theorem step_getc_resumes (hs : s.halted = false) (hpc : s.pc ≠ 0xFFFF#16)
    (hop : opcodeField (s.mem.read s.pc) = 0xF#4) (hv : trapvect8Field (s.mem.read s.pc) = 0x23#8)
    (hinput : ∀ c ∈ s.input, 255 < c) {c : Nat} (hc : c ≤ 255) :
    ∃ t, step (applyHost (.supplyInput c) s) = .next t ∧ (t.reg 0).toNat = c := by
  obtain ⟨t, ht, hreg, -⟩ :=
    getcCompletesOrHolds.1 (applyHost (.supplyInput c) s) s.input [] c hpc rfl hinput hc
  refine ⟨t, ?_, hreg⟩
  have hstep := step_trap (s := applyHost (.supplyInput c) s) hs ((opcodeField_eq_iff _ _).mp hop)
  exact hstep.trans ((congrArg (execTrap · _) hv).trans ht)

/-- Settles O6: by the ways an instruction completes, the ways a step faults, and the one way it holds. -/
theorem stepEndsInOneOfThreeWays : Obligations.StepEndsInOneOfThreeWays := by
  refine fun s => ⟨fun t h => exec_next_out (step_eq_next h).2, fun f => step_fault_out, fun r h => ?_⟩
  obtain ⟨hs, hr, hop, hv, hinput⟩ := step_refused h
  refine ⟨hr, (opcodeField_eq_iff _ _).mp hop, ?_, hinput, fun c hc hpc => step_getc_resumes hs hpc hop hv hinput hc⟩
  rw [← toNat_trapvect8Field, hv]
  rfl

theorem execTrap_completes {v : BitVec 8} (hpc : s.pc ≠ 0xFFFF#16) (hv : v.toNat ∈ [0x21, 0x23, 0x25])
    (hinput : v.toNat = 0x23 → ∃ c ∈ s.input, c ≤ 255) : ∃ t, execTrap v s = .next t := by
  rcases eq_of_toNat_legal (by simpa using hv) with rfl | rfl | rfl
  · exact ⟨_, serviceOut_next_iff.mpr ⟨hpc, rfl⟩⟩
  · obtain ⟨⟨c, rest⟩, htake⟩ := Option.ne_none_iff_exists'.mp (takeByte_ne_none.mpr (hinput rfl))
    exact ⟨_, serviceGetc_next_iff.mpr ⟨c, rest, htake, hpc, rfl⟩⟩
  · exact ⟨_, serviceHalt_next_iff.mpr rfl⟩

/-- Settles O10: of the kinds of step of a running machine, the excluded opcodes are those that raise. -/
theorem runningStepCompletes : Obligations.RunningStepCompletes := by
  intro s hs hpc hop htrapv hinput
  rcases step_running_cases hs with
    ⟨_, -, -, hfirst, hexec⟩ | ⟨hraise, -⟩ | ⟨hraise, -⟩ | ⟨-, hjmp⟩ | ⟨htrapop, htrap⟩ | ⟨hraise, -⟩
  · rw [SafeStep, hexec]
    exact exec_advancesFirst_completes hfirst hpc
  · simp [(opcodeField_eq_iff _ _).mp hraise] at hop
  · simp [(opcodeField_eq_iff _ _).mp hraise] at hop
  · exact ⟨_, hjmp⟩
  · have htrapop := (opcodeField_eq_iff _ _).mp htrapop
    rw [SafeStep, htrap]
    exact execTrap_completes hpc (by rw [toNat_trapvect8Field]; exact htrapv htrapop)
      (by rw [toNat_trapvect8Field]; exact hinput htrapop)
  · rcases hraise with hraise | hraise | hraise <;> simp [(opcodeField_eq_iff _ _).mp hraise] at hop

/-! ## The pc and the condition code -/

theorem decodeAs_ne_br {m : Mnemonic} (hm : m ≠ .br) (w : Word) (n z p : Bool) (off : BitVec 9) :
    decodeAs m w ≠ .br n z p off := by
  have htrap : ∀ v, decodeTrap v ≠ .br n z p off := fun v => by
    unfold decodeTrap
    split_ifs <;> simp
  cases m
  case br => exact absurd rfl hm
  case trap => exact htrap _
  case add | and => simp only [decodeAs]; split <;> simp
  all_goals simp [decodeAs]

theorem execTrap_next_pc {v : BitVec 8} (h : execTrap v s = .next t) :
    (v = 0x25#8 ∧ t.pc = s.pc) ∨ (v ≠ 0x25#8 ∧ t.pc.toNat = s.pc.toNat + 1) := by
  unfold execTrap at h
  split at h
  · next hv =>
    obtain ⟨hpc, rfl⟩ := serviceOut_next_iff.mp h
    exact .inr ⟨by simp [hv], toNat_pc_succ hpc⟩
  · split at h
    · next hv =>
      obtain ⟨_, _, -, hpc, rfl⟩ := serviceGetc_next_iff.mp h
      exact .inr ⟨by simp [hv], toNat_pc_succ hpc⟩
    · split at h
      · next hv =>
        obtain rfl := serviceHalt_next_iff.mp h
        exact .inl ⟨hv, rfl⟩
      · cases h

theorem step_br_next_pc (hs : s.halted = false) (hop : opcodeField (s.mem.read s.pc) = Config.opcodeMap .br)
    (h : step s = .next t) : t.pc.toNat = s.pc.toNat + 1 ∨
      (t.pc.toNat : Int) = (s.pc.toNat + 1 + sextInt 9 ((s.mem.read s.pc).toNat % 512)) % 65536 := by
  obtain ⟨hpc, rfl⟩ := execBr_next_iff.mp (step_of_opcodeField hs .br hop ▸ h)
  rw [State.setPc_pc]
  split
  · rw [pcRelative_offset9Field hpc, toNat_ofInt_word]
    exact .inr rfl
  · exact .inl (toNat_pc_succ hpc)

/-- Settles O11: by the kinds of step of a running machine, each with its own opcode. -/
theorem pcAfterStep : Obligations.PcAfterStep := by
  intro s t h
  have hs := (step_eq_next h).1
  rcases step_running_cases hs with
    ⟨m, hm, ⟨-, -, hjmp, htrap⟩, hfirst, hexec⟩ | ⟨-, hf⟩ | ⟨-, hf⟩ | ⟨hop, hnext⟩ | ⟨hop, hnext⟩ | ⟨-, hf⟩
  · have opcode_ne {m'} (hne : m ≠ m') : (s.mem.read s.pc).toNat / 4096 ≠ (Config.opcodeMap m').toNat := fun hop =>
      hne (opcodeMap_injective (hm.symm.trans ((opcodeField_eq_iff _ _).mpr hop)))
    refine ⟨fun hop => absurd hop (opcode_ne hjmp), fun hhalt => absurd hhalt.1 (opcode_ne htrap),
      fun hop => step_br_next_pc hs ((opcodeField_eq_iff _ _).mpr hop) h, fun hother _ => ?_⟩
    have hbr : m ≠ .br := fun hm' => hother (by simp [(opcodeField_eq_iff _ _).mp hm, hm', Config.opcodeMap])
    exact exec_advancesFirst_next_pc hfirst (decodeAs_ne_br hbr _) (hexec ▸ h)
  · rw [hf] at h; cases h
  · rw [hf] at h; cases h
  · cases hnext.symm.trans h
    have hop := (opcodeField_eq_iff _ _).mp hop
    refine ⟨fun _ b hb => ?_, fun hhalt => ?_, fun hbr => ?_, fun hother => ?_⟩
    · rw [State.setPc_pc, regField_eq_iff.mpr hb]
    · simp [hop] at hhalt
    · simp [hop] at hbr
    · simp [hop] at hother
  · have hop := (opcodeField_eq_iff _ _).mp hop
    have hhalt : (s.mem.read s.pc).toNat % 256 = 0x25 ↔ trapvect8Field (s.mem.read s.pc) = 0x25#8 := by
      rw [BitVec.toNat_eq, toNat_trapvect8Field]
      rfl
    rcases execTrap_next_pc (hnext ▸ h) with ⟨hv, hpc⟩ | ⟨hv, hpc⟩
    all_goals simp [hop, hhalt, hv, hpc]
  · rw [hf] at h; cases h

/-- Settles O13: no step writes cc, so it keeps reset's ZERO, which z alone names. -/
theorem untouchedProgramBranchesOnZero : Obligations.UntouchedProgramBranchesOnZero := by
  refine ⟨rfl, fun m console k s hrun => ?_⟩
  have hcc : s.cc = .zero := runSteps_next_cc hrun
  refine ⟨hcc, fun n z p off hpc => execBr_next_iff.mpr ⟨hpc, ?_⟩⟩
  have htaken : branchTaken n z p s.cc = z := by
    rw [hcc, Bool.eq_iff_iff, branchTaken_eq_true]
    simp
  have hnext : s.pc + 1#16 = BitVec.ofNat 16 (s.pc.toNat + 1) := by
    rw [← toNat_pc_succ hpc, BitVec.ofNat_toNat, BitVec.setWidth_eq]
  rw [htaken, pcRelative_advanced hpc, sextInt_toNat (by decide), hnext]

end Sys2Proof.Machine
end

section
/-! SUPPORT. Proofs of the statements about the words of the operate instructions, ST, LDR and STR (R96 to R98, R102, R105,
R106). -/

namespace Sys2Proof.Machine

variable {s : State}

/-! ## Operands, by the bits of the word -/

theorem sext16_imm5Field (w : Word) : sext16 (imm5Field w) = BitVec.ofInt 16 (sextInt 5 (w.toNat % 32)) := by
  rw [sext16_eq_sextInt (by decide), toNat_imm5Field]

theorem baseOffset_offset6Field (b : RegIdx) (w : Word) :
    baseOffset s b (offset6Field w) = BitVec.ofInt 16 ((s.reg b).toNat + sextInt 6 (w.toNat % 64)) := by
  rw [baseOffset_eq, toNat_offset6Field]

/-- STR's executor reads bits 4:0 of its word (log 3). -/
theorem strAddress_offset6Field (b : RegIdx) (w : Word) :
    strAddress s b (offset6Field w) = BitVec.ofInt 16 ((s.reg b).toNat + sextInt 5 (w.toNat % 32)) := by
  apply BitVec.eq_of_toNat_eq
  have hbits : ((offset6Field w).setWidth 5).toNat = w.toNat % 32 := by
    rw [BitVec.toNat_setWidth, toNat_offset6Field, Nat.mod_mod_of_dvd _ (by decide)]
  rw [← Int.natCast_inj, toNat_strAddress, toNat_ofInt_word, ← sextInt_toNat (by decide), hbits]

/-- The second operand of ADD and AND: a register, or the immediate where bit 5 is set (R50, R51). -/
def secondOperand (s : State) (w : Word) : Word :=
  if w.toNat / 32 % 2 = 0 then s.reg (regField w 0) else sext16 (imm5Field w)

theorem formBit_cases (w : Word) :
    (w.getLsbD 5 = false ∧ w.toNat / 32 % 2 = 0) ∨ (w.getLsbD 5 = true ∧ w.toNat / 32 % 2 ≠ 0) := by
  rw [getLsbD_eq_decide]
  rcases Nat.mod_two_eq_zero_or_one (w.toNat / 32) with h | h <;> simp [h]

theorem exec_decodeAs_add (w : Word) (hpc : s.pc ≠ 0xFFFF#16) : exec (decodeAs .add w) s =
    .next ((s.setPc (s.pc + 1#16)).setReg (regField w 9) (s.reg (regField w 6) + secondOperand s w)) := by
  rw [decodeAs, secondOperand]
  rcases formBit_cases w with ⟨hbit, hform⟩ | ⟨hbit, hform⟩
  · rw [if_neg (by rw [hbit]; decide), if_pos hform]
    exact execAddReg_next_iff.mpr ⟨hpc, rfl⟩
  · rw [if_pos hbit, if_neg hform]
    exact execAddImm_next_iff.mpr ⟨hpc, rfl⟩

theorem exec_decodeAs_and (w : Word) (hpc : s.pc ≠ 0xFFFF#16) : exec (decodeAs .and w) s =
    .next ((s.setPc (s.pc + 1#16)).setReg (regField w 9) (s.reg (regField w 6) &&& secondOperand s w)) := by
  rw [decodeAs, secondOperand]
  rcases formBit_cases w with ⟨hbit, hform⟩ | ⟨hbit, hform⟩
  · rw [if_neg (by rw [hbit]; decide), if_pos hform]
    exact execAndReg_next_iff.mpr ⟨hpc, rfl⟩
  · rw [if_pos hbit, if_neg hform]
    exact execAndImm_next_iff.mpr ⟨hpc, rfl⟩

/-- Settles O30: by each handler's next state, with its operands read off the word's bits. -/
theorem operateWordsRunAsWritten : Obligations.OperateWordsRunAsWritten := by
  intro s d a b hs hpc ir second hd ha hb
  obtain rfl : regField (s.mem.read s.pc) 9 = d := regField_eq_iff.mpr hd
  obtain rfl : regField (s.mem.read s.pc) 6 = a := regField_eq_iff.mpr ha
  obtain rfl : regField (s.mem.read s.pc) 0 = b := regField_eq_iff.mpr (by rwa [pow_zero, Nat.div_one])
  have hsecond : secondOperand s (s.mem.read s.pc) = second := by rw [secondOperand, sext16_imm5Field]
  refine ⟨fun hop => ?add, fun hop => ?and, fun hop => ?not⟩
  case add => rw [step_of_opcode hs .add hop, exec_decodeAs_add _ hpc, hsecond]
  case and => rw [step_of_opcode hs .and hop, exec_decodeAs_and _ hpc, hsecond]
  case not =>
    rw [step_of_opcode hs .not hop]
    exact execNot_next_iff.mpr ⟨hpc, rfl⟩

/-- Settles O32: by each handler's next state, with its operands read off the word's bits. -/
theorem stAndBaseOffsetWordsRunAsWritten : Obligations.StAndBaseOffsetWordsRunAsWritten := by
  intro s r b hs hpc ir s' ea9 hr hb
  obtain rfl : regField (s.mem.read s.pc) 9 = r := regField_eq_iff.mpr hr
  obtain rfl : regField (s.mem.read s.pc) 6 = b := regField_eq_iff.mpr hb
  refine ⟨fun hop => ?st, fun hop => ?ldr, fun hop => ?str⟩
  case st =>
    rw [step_of_opcode hs .st hop, show ea9 = _ from (pcRelative_offset9Field hpc).symm]
    exact execSt_next_iff.mpr ⟨hpc, rfl⟩
  case ldr =>
    rw [step_of_opcode hs .ldr hop, ← baseOffset_offset6Field]
    exact execLdr_next_iff.mpr ⟨hpc, rfl⟩
  case str =>
    rw [step_of_opcode hs .str hop, ← strAddress_offset6Field]
    exact execStr_next_iff.mpr ⟨hpc, rfl⟩

end Sys2Proof.Machine
end

section
/-! SUPPORT. Proofs of the statements about what instructions may touch: registers (R16) and memory (R35, R45). -/

namespace Sys2Proof.Machine

variable {s t : State}

/-! ## Registers written -/

/-- TRAP's plain term is one of its services, or completes nothing. -/
theorem execTrap_next_cases {v : BitVec 8} (h : execTrap v s = .next t) :
    (v = 0x21#8 ∧ serviceOut s = .next t) ∨ (v = 0x23#8 ∧ serviceGetc s = .next t) ∨
      (v = 0x25#8 ∧ serviceHalt s = .next t) := by
  unfold execTrap at h
  split at h
  · next hv => exact .inl ⟨hv, h⟩
  · split at h
    · next hv => exact .inr (.inl ⟨hv, h⟩)
    · split at h
      · next hv => exact .inr (.inr ⟨hv, h⟩)
      · cases h

theorem serviceOut_next_reg (h : serviceOut s = .next t) (r : RegIdx) : t.reg r = s.reg r := by
  obtain ⟨-, rfl⟩ := serviceOut_next_iff.mp h
  rfl

theorem serviceGetc_next_reg (h : serviceGetc s = .next t) {r : RegIdx} (hr : r ≠ 0) : t.reg r = s.reg r := by
  obtain ⟨_, _, -, -, rfl⟩ := serviceGetc_next_iff.mp h
  exact State.reg_setReg_of_ne _ _ _ hr

theorem serviceHalt_next_reg (h : serviceHalt s = .next t) (r : RegIdx) : t.reg r = s.reg r := by
  obtain rfl := serviceHalt_next_iff.mp h
  rfl

theorem exec_next_reg_of_not_written {i : Instr} {r : RegIdx} (h : exec i s = .next t) (hr : r ∉ writesOf i) :
    t.reg r = s.reg r := by
  have written {d : RegIdx} {p v : Word} (hd : r ∉ [d]) : ((s.setPc p).setReg d v).reg r = s.reg r :=
    State.reg_setReg_of_ne _ _ _ (by simpa using hd)
  cases i with
  | addReg d a b => obtain ⟨-, rfl⟩ := execAddReg_next_iff.mp h; exact written hr
  | addImm d a imm => obtain ⟨-, rfl⟩ := execAddImm_next_iff.mp h; exact written hr
  | andReg d a b => obtain ⟨-, rfl⟩ := execAndReg_next_iff.mp h; exact written hr
  | andImm d a imm => obtain ⟨-, rfl⟩ := execAndImm_next_iff.mp h; exact written hr
  | notReg d a => obtain ⟨-, rfl⟩ := execNot_next_iff.mp h; exact written hr
  | ld d off => obtain ⟨-, rfl⟩ := execLd_next_iff.mp h; exact written hr
  | ldr d b off => obtain ⟨-, rfl⟩ := execLdr_next_iff.mp h; exact written hr
  | lea d off => obtain ⟨-, rfl⟩ := execLea_next_iff.mp h; exact written hr
  | st a off => obtain ⟨-, rfl⟩ := execSt_next_iff.mp h; rfl
  | str a b off => obtain ⟨-, rfl⟩ := execStr_next_iff.mp h; rfl
  | br n z p off => obtain ⟨-, rfl⟩ := execBr_next_iff.mp h; rfl
  | jmp b => obtain rfl := execJmp_next_iff.mp h; rfl
  | trap v =>
    rcases execTrap_next_cases h with ⟨rfl, hout⟩ | ⟨rfl, hgetc⟩ | ⟨rfl, hhalt⟩
    · exact serviceOut_next_reg hout r
    · exact serviceGetc_next_reg hgetc (by simpa [writesOf] using hr)
    · exact serviceHalt_next_reg hhalt r
  | trapOut => exact serviceOut_next_reg h r
  | trapGetc => exact serviceGetc_next_reg h (by simpa [writesOf] using hr)
  | trapHalt => exact serviceHalt_next_reg h r
  | ldi | sti | illegal4 | illegal8 | illegalD => cases h

/-! ## Registers read -/

/-- The states agree but for the register `q`, and on it too where it is among `written`. -/
def AgreeOff (q : RegIdx) (written : List RegIdx) (t' t : State) : Prop :=
  t'.pc = t.pc ∧ t'.cc = t.cc ∧ t'.halted = t.halted ∧ t'.mem = t.mem ∧ t'.out = t.out ∧ t'.input = t.input ∧
    ∀ r, r ≠ q ∨ r ∈ written → t'.reg r = t.reg r

theorem agreeOff_setReg_setReg (q d : RegIdx) (v x p : Word) :
    AgreeOff q [d] (((s.setReg q v).setPc p).setReg d x) ((s.setPc p).setReg d x) := by
  refine ⟨rfl, rfl, rfl, rfl, rfl, rfl, fun r hr => ?_⟩
  simp only [State.reg_setReg, State.setPc_reg]
  split
  · rfl
  · next hd => rw [if_neg (hr.resolve_right (by simpa using hd))]

/-- The hypothesis holds by `rfl` where `t'` is `t` with the update of `q` made before others, of other fields. -/
theorem agreeOff_of_eq_setReg {q : RegIdx} {v : Word} {t' t : State} (h : t' = t.setReg q v) : AgreeOff q [] t' t := by
  subst h
  exact ⟨rfl, rfl, rfl, rfl, rfl, rfl, fun _ hr => State.reg_setReg_of_ne _ _ _ (hr.resolve_right List.not_mem_nil)⟩

section Read

variable {q : RegIdx} {v : Word}

theorem serviceOut_setReg_next (hq : q ≠ 0) (h : serviceOut s = .next t) :
    ∃ t', serviceOut (s.setReg q v) = .next t' ∧ AgreeOff q [] t' t := by
  obtain ⟨hpc, rfl⟩ := serviceOut_next_iff.mp h
  refine ⟨_, serviceOut_next_iff.mpr ⟨hpc, rfl⟩, ?_⟩
  rw [State.reg_setReg_of_ne _ _ _ hq.symm]
  exact agreeOff_of_eq_setReg (v := v) rfl

theorem serviceGetc_setReg_next (h : serviceGetc s = .next t) :
    ∃ t', serviceGetc (s.setReg q v) = .next t' ∧ AgreeOff q [0] t' t := by
  obtain ⟨c, rest, htake, hpc, rfl⟩ := serviceGetc_next_iff.mp h
  exact ⟨_, serviceGetc_next_iff.mpr ⟨c, rest, htake, hpc, rfl⟩,
    agreeOff_setReg_setReg (s := { s with input := rest }) q 0 v _ _⟩

theorem serviceHalt_setReg_next (h : serviceHalt s = .next t) :
    ∃ t', serviceHalt (s.setReg q v) = .next t' ∧ AgreeOff q [] t' t := by
  obtain rfl := serviceHalt_next_iff.mp h
  exact ⟨_, serviceHalt_next_iff.mpr rfl, agreeOff_of_eq_setReg (v := v) rfl⟩

theorem exec_setReg_next {i : Instr} (hq : q ∉ readsOf i) (h : exec i s = .next t) :
    ∃ t', exec i (s.setReg q v) = .next t' ∧ AgreeOff q (writesOf i) t' t := by
  have unread {a : RegIdx} (ha : q ≠ a) : (s.setReg q v).reg a = s.reg a := State.reg_setReg_of_ne _ _ _ ha.symm
  cases i with
  | addReg d a b =>
    obtain ⟨hpc, rfl⟩ := execAddReg_next_iff.mp h
    obtain ⟨ha, hb⟩ : q ≠ a ∧ q ≠ b := by simpa [readsOf] using hq
    refine ⟨_, execAddReg_next_iff.mpr ⟨hpc, rfl⟩, ?_⟩
    rw [unread ha, unread hb]
    exact agreeOff_setReg_setReg ..
  | addImm d a imm =>
    obtain ⟨hpc, rfl⟩ := execAddImm_next_iff.mp h
    refine ⟨_, execAddImm_next_iff.mpr ⟨hpc, rfl⟩, ?_⟩
    rw [unread (List.ne_of_not_mem_cons hq)]
    exact agreeOff_setReg_setReg ..
  | andReg d a b =>
    obtain ⟨hpc, rfl⟩ := execAndReg_next_iff.mp h
    obtain ⟨ha, hb⟩ : q ≠ a ∧ q ≠ b := by simpa [readsOf] using hq
    refine ⟨_, execAndReg_next_iff.mpr ⟨hpc, rfl⟩, ?_⟩
    rw [unread ha, unread hb]
    exact agreeOff_setReg_setReg ..
  | andImm d a imm =>
    obtain ⟨hpc, rfl⟩ := execAndImm_next_iff.mp h
    refine ⟨_, execAndImm_next_iff.mpr ⟨hpc, rfl⟩, ?_⟩
    rw [unread (List.ne_of_not_mem_cons hq)]
    exact agreeOff_setReg_setReg ..
  | notReg d a =>
    obtain ⟨hpc, rfl⟩ := execNot_next_iff.mp h
    refine ⟨_, execNot_next_iff.mpr ⟨hpc, rfl⟩, ?_⟩
    rw [unread (List.ne_of_not_mem_cons hq)]
    exact agreeOff_setReg_setReg ..
  | ld d off =>
    obtain ⟨hpc, rfl⟩ := execLd_next_iff.mp h
    exact ⟨_, execLd_next_iff.mpr ⟨hpc, rfl⟩, agreeOff_setReg_setReg ..⟩
  | lea d off =>
    obtain ⟨hpc, rfl⟩ := execLea_next_iff.mp h
    exact ⟨_, execLea_next_iff.mpr ⟨hpc, rfl⟩, agreeOff_setReg_setReg ..⟩
  | ldr d b off =>
    obtain ⟨hpc, rfl⟩ := execLdr_next_iff.mp h
    refine ⟨_, execLdr_next_iff.mpr ⟨hpc, rfl⟩, ?_⟩
    rw [baseOffset, unread (List.ne_of_not_mem_cons hq)]
    exact agreeOff_setReg_setReg ..
  | st a off =>
    obtain ⟨hpc, rfl⟩ := execSt_next_iff.mp h
    refine ⟨_, execSt_next_iff.mpr ⟨hpc, rfl⟩, ?_⟩
    rw [unread (List.ne_of_not_mem_cons hq)]
    exact agreeOff_of_eq_setReg (v := v) rfl
  | str a b off =>
    obtain ⟨hpc, rfl⟩ := execStr_next_iff.mp h
    obtain ⟨ha, hb⟩ : q ≠ a ∧ q ≠ b := by simpa [readsOf] using hq
    refine ⟨_, execStr_next_iff.mpr ⟨hpc, rfl⟩, ?_⟩
    rw [strAddress, unread ha, unread hb]
    exact agreeOff_of_eq_setReg (v := v) rfl
  | br n z p off =>
    obtain ⟨hpc, rfl⟩ := execBr_next_iff.mp h
    exact ⟨_, execBr_next_iff.mpr ⟨hpc, rfl⟩, agreeOff_of_eq_setReg (v := v) rfl⟩
  | jmp b =>
    obtain rfl := execJmp_next_iff.mp h
    refine ⟨_, execJmp_next_iff.mpr rfl, ?_⟩
    rw [unread (List.ne_of_not_mem_cons hq)]
    exact agreeOff_of_eq_setReg (v := v) rfl
  | trap w =>
    rcases execTrap_next_cases h with ⟨rfl, hout⟩ | ⟨rfl, hgetc⟩ | ⟨rfl, hhalt⟩
    · exact serviceOut_setReg_next (List.ne_of_not_mem_cons hq) hout
    · exact serviceGetc_setReg_next hgetc
    · exact serviceHalt_setReg_next hhalt
  | trapOut => exact serviceOut_setReg_next (List.ne_of_not_mem_cons hq) h
  | trapGetc => exact serviceGetc_setReg_next h
  | trapHalt => exact serviceHalt_setReg_next h
  | ldi | sti | illegal4 | illegal8 | illegalD => cases h

/-- A fault reports no register but OUT's R0, in the byte that it wrote. -/
theorem exec_setReg_fault {i : Instr} {f : Fault} (hq : q ∉ readsOf i) (h : exec i s = .fault f) :
    exec i (s.setReg q v) = .fault f := by
  cases hi : advancesFirst i
  case true => exact (exec_advancesFirst_fault_iff hi).mpr ((exec_advancesFirst_fault_iff (s := s) hi).mp h)
  case false =>
    have out (hq : q ≠ 0) (h : serviceOut s = .fault f) : serviceOut (s.setReg q v) = .fault f := by
      rw [serviceOut_fault_iff, State.reg_setReg_of_ne _ _ _ hq.symm]
      exact serviceOut_fault_iff.mp h
    cases i with
    | trap w =>
      by_cases hw : w = 0x21#8
      · subst hw
        exact out (List.ne_of_not_mem_cons hq) h
      · have hw' : w.toNat ≠ 0x21 := fun h => hw (BitVec.eq_of_toNat_eq h)
        refine execTrap_fault_iff.mpr ?_
        simpa [hw'] using execTrap_fault_iff.mp h
    | trapOut => exact out (List.ne_of_not_mem_cons hq) h
    | trapGetc => exact serviceGetc_fault_iff.mpr (serviceGetc_fault_iff (s := s).mp h)
    | ldi | sti | illegal4 | illegal8 | illegalD => exact h
    | jmp | trapHalt => cases h
    | addReg | addImm | andReg | andImm | notReg | ld | st | ldr | str | lea | br => cases hi

end Read

/-- Settles O33: by each instruction's next state, its operands being the registers of its read list. -/
theorem registersReadAndWritten : Obligations.RegistersReadAndWritten :=
  ⟨fun _ _ _ _ => exec_next_reg_of_not_written, fun _ _ _ _ _ => exec_setReg_next, fun _ _ _ _ _ => exec_setReg_fault⟩

/-! ## Memory -/

theorem execTrap_next_mem {v : BitVec 8} (h : execTrap v s = .next t) : t.mem = s.mem := by
  rcases execTrap_next_cases h with ⟨-, hout⟩ | ⟨-, hgetc⟩ | ⟨-, hhalt⟩
  · obtain ⟨-, rfl⟩ := serviceOut_next_iff.mp hout; rfl
  · obtain ⟨_, _, -, -, rfl⟩ := serviceGetc_next_iff.mp hgetc; rfl
  · obtain rfl := serviceHalt_next_iff.mp hhalt; rfl

/-- No instruction but the two stores touches memory. -/
theorem exec_next_mem {i : Instr} (hst : ∀ r off, i ≠ .st r off) (hstr : ∀ r b off, i ≠ .str r b off)
    (h : exec i s = .next t) : t.mem = s.mem := by
  cases i with
  | addReg d a b => obtain ⟨-, rfl⟩ := execAddReg_next_iff.mp h; rfl
  | addImm d a imm => obtain ⟨-, rfl⟩ := execAddImm_next_iff.mp h; rfl
  | andReg d a b => obtain ⟨-, rfl⟩ := execAndReg_next_iff.mp h; rfl
  | andImm d a imm => obtain ⟨-, rfl⟩ := execAndImm_next_iff.mp h; rfl
  | notReg d a => obtain ⟨-, rfl⟩ := execNot_next_iff.mp h; rfl
  | ld d off => obtain ⟨-, rfl⟩ := execLd_next_iff.mp h; rfl
  | ldr d b off => obtain ⟨-, rfl⟩ := execLdr_next_iff.mp h; rfl
  | lea d off => obtain ⟨-, rfl⟩ := execLea_next_iff.mp h; rfl
  | br n z p off => obtain ⟨-, rfl⟩ := execBr_next_iff.mp h; rfl
  | jmp b => obtain rfl := execJmp_next_iff.mp h; rfl
  | st r off => exact absurd rfl (hst r off)
  | str r b off => exact absurd rfl (hstr r b off)
  | trap v => exact execTrap_next_mem h
  | trapOut => exact execTrap_next_mem (v := 0x21#8) h
  | trapGetc => exact execTrap_next_mem (v := 0x23#8) h
  | trapHalt => exact execTrap_next_mem (v := 0x25#8) h
  | ldi | sti | illegal4 | illegal8 | illegalD => cases h

theorem decodeTrap_ne_store (v : BitVec 8) :
    (∀ r off, decodeTrap v ≠ .st r off) ∧ ∀ r b off, decodeTrap v ≠ .str r b off := by
  unfold decodeTrap
  split_ifs <;> simp

theorem decodeAs_ne_store {m : Mnemonic} (hst : m ≠ .st) (hstr : m ≠ .str) (w : Word) :
    (∀ r off, decodeAs m w ≠ .st r off) ∧ ∀ r b off, decodeAs m w ≠ .str r b off := by
  cases m
  case st => exact absurd rfl hst
  case str => exact absurd rfl hstr
  case trap => exact decodeTrap_ne_store _
  case add | and => simp only [decodeAs]; split <;> simp
  all_goals simp [decodeAs]

/-- A step writes one cell, by a store's word, with the register that bits 11:9 name, or no memory at all. -/
theorem step_next_mem_cases (h : step s = .next t) :
    t.mem = s.mem ∨
      ((opcodeField (s.mem.read s.pc) = Config.opcodeMap .st ∨ opcodeField (s.mem.read s.pc) = Config.opcodeMap .str) ∧
        ∃ a, t.mem = s.mem.write a (s.reg (regField (s.mem.read s.pc) 9))) := by
  obtain ⟨hs, hexec⟩ := step_eq_next h
  rcases opcode_cases (s.mem.read s.pc) with ⟨m, hm⟩ | hnone
  · rw [step_of_opcodeField hs m hm] at h
    by_cases hst : m = .st
    · subst hst
      obtain ⟨-, rfl⟩ := execSt_next_iff.mp h
      exact .inr ⟨.inl hm, _, rfl⟩
    · by_cases hstr : m = .str
      · subst hstr
        obtain ⟨-, rfl⟩ := execStr_next_iff.mp h
        exact .inr ⟨.inr hm, _, rfl⟩
      · obtain ⟨hne, hne'⟩ := decodeAs_ne_store hst hstr (s.mem.read s.pc)
        exact .inl (exec_next_mem hne hne' h)
  · rw [step_of_unassigned hs hnone] at h
    cases h

/-- Settles O34: the one cell that a store writes is the one that reads differently. -/
theorem memoryChangesOnlyByStores : Obligations.MemoryChangesOnlyByStores := by
  intro s t a h hchanged
  rcases step_next_mem_cases h with hsame | ⟨hop, a', hwrite⟩
  · exact absurd (by rw [hsame]) hchanged
  · have ha : a = a' := by_contra fun hne => hchanged (by rw [hwrite, Memory.read_write_of_ne _ _ hne])
    subst ha
    refine ⟨hop.imp (opcodeField_eq_iff _ _).mp (opcodeField_eq_iff _ _).mp, fun r hr => ?_, fun b hb => ?_⟩
    · rw [hwrite, Memory.read_write_same, regField_eq_iff.mpr hr]
    · rw [hwrite, Memory.read_write_of_ne _ _ hb]

/-- A machine whose pc is at a cell just written runs the word that was written (R45). -/
theorem step_at_written_cell {a v : Word} (ht : t.halted = false) (hmem : t.mem.read a = v) :
    step (t.setPc a) = exec (decode v) (t.setPc a) := by
  rw [step_of_running (s := t.setPc a) ht, fetch, State.setPc_mem, State.setPc_pc, hmem]

/-- Settles O35: the cell a store wrote reads the stored register at once, and the fetch reads the cell. -/
theorem storedWordIsExecuted : Obligations.StoredWordIsExecuted := by
  refine ⟨fun s t r off h ht => ?_, fun s t r b off h ht => ?_⟩
  · obtain ⟨-, rfl⟩ := execSt_next_iff.mp h
    exact step_at_written_cell ht (Memory.read_write_same ..)
  · obtain ⟨-, rfl⟩ := execStr_next_iff.mp h
    exact step_at_written_cell ht (Memory.read_write_same ..)

end Sys2Proof.Machine
end

section
/-! SUPPORT. Proofs of the statements about run-to-halt and the host's actions (R31, R93, R94). -/

namespace Sys2Proof.Machine

variable {s t : State}

/-! ## The fuel of a run -/

theorem runToHalt_succ_of_fault {f : Fault} (hs : s.halted = false) (h : step s = .fault f) (fuel : Nat) :
    runToHalt (fuel + 1) s = .aborted f := by
  simp [runToHalt, hs, h]

theorem runToHalt_succ_of_refused {r : Refusal} (hs : s.halted = false) (h : step s = .refused r) (fuel : Nat) :
    runToHalt (fuel + 1) s = .held r s := by
  simp [runToHalt, hs, h]

theorem runToHalt_zero_of_running (hs : s.halted = false) : runToHalt 0 s = .noResult s := by
  simp [runToHalt, hs]

theorem runToHalt_of_le {n m : Nat} (hdone : ∀ u, runToHalt n s ≠ .noResult u) (hle : n ≤ m) :
    runToHalt m s = runToHalt n s := by
  induction n generalizing s m with
  | zero =>
    cases hs : s.halted
    · exact absurd (runToHalt_zero_of_running hs) (hdone s)
    · rw [runToHalt_of_halted hs, runToHalt_of_halted hs]
  | succ n ih =>
    obtain ⟨m, rfl⟩ := Nat.exists_eq_add_of_le' (Nat.one_le_of_lt hle)
    cases hs : s.halted
    · cases hstep : step s with
      | next u =>
        rw [runToHalt_succ_of_next hs hstep] at hdone ⊢
        rw [runToHalt_succ_of_next hs hstep, ih hdone (by omega)]
      | fault f => rw [runToHalt_succ_of_fault hs hstep, runToHalt_succ_of_fault hs hstep]
      | refused r => rw [runToHalt_succ_of_refused hs hstep, runToHalt_succ_of_refused hs hstep]
    · rw [runToHalt_of_halted hs, runToHalt_of_halted hs]

/-- Settles O42: by induction on the fuel that sufficed. -/
theorem runResultIsStableInFuel : Obligations.RunResultIsStableInFuel := fun _ _ _ => runToHalt_of_le

/-! ## How a run ends -/

/-- A run that ends well answers that end at every fuel that brings a result. -/
theorem runToHalt_eq_halted_of_endsWell (hend : EndsWell s t) {n : Nat} (hdone : ∀ u, runToHalt n s ≠ .noResult u) :
    runToHalt n s = .halted t := by
  obtain ⟨fuel, hfuel⟩ := hend
  rcases Nat.le_total n fuel with hle | hle
  · rw [← runToHalt_of_le hdone hle, hfuel]
  · rw [runToHalt_of_le (by simp [hfuel]) hle, hfuel]

/-- Before the step that halts a run no state is halted. -/
theorem running_of_runSteps_step {n : Nat} {u : State} (hrun : runSteps n s = .next u) (hstep : step u = .next t) :
    s.halted = false := by
  cases n with
  | zero => cases hrun; exact (step_eq_next hstep).1
  | succ n =>
    obtain ⟨w, hw, -⟩ := runSteps_succ_eq_next hrun
    exact (step_eq_next hw).1

theorem endsWell_of_runSteps {n : Nat} {u : State} (hrun : runSteps n s = .next u) (hstep : step u = .next t)
    (ht : t.halted = true) : runToHalt (n + 1) s = .halted t := by
  induction n generalizing s with
  | zero =>
    cases hrun
    rw [runToHalt_succ_of_next (step_eq_next hstep).1 hstep, runToHalt_of_halted ht]
  | succ n ih =>
    obtain ⟨w, hw, hrest⟩ := runSteps_succ_eq_next hrun
    rw [runToHalt_succ_of_next (step_eq_next hw).1 hw, ih hrest]

theorem runSteps_of_runToHalt_halted {fuel : Nat} (hs : s.halted = false) (h : runToHalt fuel s = .halted t) :
    ∃ n u, runSteps n s = .next u ∧ step u = .next t ∧ t.halted = true := by
  induction fuel generalizing s with
  | zero => rw [runToHalt_zero_of_running hs] at h; cases h
  | succ fuel ih =>
    cases hstep : step s with
    | next w =>
      rw [runToHalt_succ_of_next hs hstep] at h
      cases hw : w.halted
      · obtain ⟨n, u, hrun, hlast⟩ := ih hw h
        exact ⟨n + 1, u, (runSteps_succ_of_next hstep n).trans hrun, hlast⟩
      · rw [runToHalt_of_halted hw] at h
        cases h
        exact ⟨0, s, rfl, hstep, hw⟩
    | fault f => rw [runToHalt_succ_of_fault hs hstep] at h; cases h
    | refused r => rw [runToHalt_succ_of_refused hs hstep] at h; cases h

theorem runSteps_of_runToHalt_aborted {fuel : Nat} {f : Fault} (h : runToHalt fuel s = .aborted f) :
    ∃ n u, runSteps n s = .next u ∧ step u = .fault f := by
  induction fuel generalizing s with
  | zero =>
    cases hs : s.halted
    · rw [runToHalt_zero_of_running hs] at h; cases h
    · rw [runToHalt_of_halted hs] at h; cases h
  | succ fuel ih =>
    cases hs : s.halted
    · cases hstep : step s with
      | next w =>
        rw [runToHalt_succ_of_next hs hstep] at h
        obtain ⟨n, u, hrun, hlast⟩ := ih h
        exact ⟨n + 1, u, (runSteps_succ_of_next hstep n).trans hrun, hlast⟩
      | fault g =>
        rw [runToHalt_succ_of_fault hs hstep] at h
        cases h
        exact ⟨0, s, rfl, hstep⟩
      | refused r => rw [runToHalt_succ_of_refused hs hstep] at h; cases h
    · rw [runToHalt_of_halted hs] at h; cases h

theorem endsWell_iff (hs : s.halted = false) :
    EndsWell s t ↔ ∃ n u, runSteps n s = .next u ∧ step u = .next t ∧ t.halted = true :=
  ⟨fun ⟨_, h⟩ => runSteps_of_runToHalt_halted hs h,
    fun ⟨n, _, hrun, hstep, ht⟩ => ⟨n + 1, endsWell_of_runSteps hrun hstep ht⟩⟩

/-- The step that halts is HALT's, which leaves the pc and memory (R114). -/
theorem step_next_halted (h : step s = .next t) (ht : t.halted = true) : t = { s with halted := true } := by
  obtain ⟨hop, hv⟩ := (step_next_halted_iff_fields h).mp ht
  have hstep := step_trap (step_eq_next h).1 ((opcodeField_eq_iff _ _).mp hop)
  rw [hv, execTrap_halt, h] at hstep
  exact (serviceHalt_next_iff.mp hstep.symm).symm

theorem endsWell_at_halt (hs : s.halted = false) (h : EndsWell s t) :
    (t.mem.read t.pc).toNat / 4096 = 0xF ∧ (t.mem.read t.pc).toNat % 256 = 0x25 := by
  obtain ⟨_, u, -, hstep, ht⟩ := (endsWell_iff hs).mp h
  have hword := ((haltedIsSetByHaltAlone.1 u t hstep).2).mp ht
  rw [step_next_halted hstep ht]
  exact hword

/-- Settles O43: by induction on the fuel and on the steps; a result that more fuel does not change excludes another. -/
theorem runEndsWellExactlyAtHalt : Obligations.RunEndsWellExactlyAtHalt := by
  refine ⟨fun s t => endsWell_iff, fun s t => endsWell_at_halt, fun n s f => runSteps_of_runToHalt_aborted,
    fun s hother => ?_⟩
  rintro ⟨t, hend⟩
  rcases hother with ⟨n, f, h⟩ | ⟨n, r, u, h⟩ | hloop
  · cases h.symm.trans (runToHalt_eq_halted_of_endsWell hend (by simp [h]))
  · cases h.symm.trans (runToHalt_eq_halted_of_endsWell hend (by simp [h]))
  · obtain ⟨fuel, hfuel⟩ := hend
    obtain ⟨u, hu⟩ := hloop fuel
    simp [hfuel] at hu

/-! ## The host between steps -/

theorem applyHost_keeps_inv (h : HostAction) (hs : s.Inv) : (applyHost h s).Inv := by
  cases h with
  | writeMem a v => exact Memory.wf_write a v hs
  | writeReg | writePc | writeCc | supplyInput => exact hs

/-- Settles O44: each action is one update of the state, and only the memory write touches memory. -/
theorem hostActionsWriteWhatTheyName : Obligations.HostActionsWriteWhatTheyName := by
  refine ⟨fun h s => ⟨?_, ?_, applyHost_keeps_inv h⟩, fun s i v => ⟨State.reg_setReg_same .., ⟨fun r hr => ?_, ?_⟩, rfl⟩,
    fun s v => ⟨rfl, onlyPc_setPc s v⟩, fun s a v => ⟨Memory.read_write_same .., ⟨fun _ => rfl, rfl, rfl, rfl, rfl, ?_⟩, rfl⟩,
    fun _ _ _ => ⟨rfl, rfl⟩⟩
  · cases h <;> rfl
  · cases h <;> rfl
  · exact State.reg_setReg_of_ne _ _ _ hr
  · exact ⟨rfl, rfl, rfl, rfl, rfl⟩
  · exact Memory.readByte_write_of_ne s.mem a v

end Sys2Proof.Machine
end

section
/-! SUPPORT. Proofs of the statements about the assembler's lines, tokens and mnemonics (R76 to R83). -/

namespace Sys2Proof.Machine

/-! ## Mnemonics (R78) -/

theorem brFlags_of_letters {cs : List Char} (h : ∀ c ∈ cs, c = 'n' ∨ c = 'z' ∨ c = 'p') :
    brFlags cs = some (decide ('n' ∈ cs), decide ('z' ∈ cs), decide ('p' ∈ cs)) := by
  induction cs with
  | nil => simp [brFlags]
  | cons c cs ih =>
    obtain ⟨hc, hcs⟩ := List.forall_mem_cons.mp h
    rcases hc with rfl | rfl | rfl <;> simp [brFlags, ih hcs]

theorem letters_of_brFlags {cs : List Char} {f : Bool × Bool × Bool} (h : brFlags cs = some f) :
    ∀ c ∈ cs, c = 'n' ∨ c = 'z' ∨ c = 'p' := by
  induction cs generalizing f with
  | nil => simp
  | cons c cs ih =>
    have hc : (c = 'n' ∨ c = 'z' ∨ c = 'p') ∧ ∃ g, brFlags cs = some g := by
      unfold brFlags at h
      split at h
      case h_1 heq => cases heq
      case h_5 => cases h
      all_goals
        next heq =>
        cases heq
        obtain ⟨g, hg, -⟩ := Option.map_eq_some_iff.mp h
        exact ⟨by simp, g, hg⟩
    obtain ⟨hletter, g, hg⟩ := hc
    exact List.forall_mem_cons.mpr ⟨hletter, ih hg⟩

theorem recognise_names : ∀ p ∈ plainMnemonics, recognise p.1 = some (.plain p.2) := by decide

theorem recognise_br {flags : List Char} (h : ∀ c ∈ flags, c = 'n' ∨ c = 'z' ∨ c = 'p') :
    recognise ('B' :: 'R' :: flags) = some (.br (decide ('n' ∈ flags)) (decide ('z' ∈ flags)) (decide ('p' ∈ flags))) := by
  have hlookup : plainMnemonics.lookup ('B' :: 'R' :: flags) = none := by simp [plainMnemonics]
  simp [recognise, hlookup, brFlags_of_letters h]

/-- A recognised text is a name of the list, or BR and a string over n, z and p. -/
theorem recognise_eq_some_cases {text : List Char} {r : MnemonicText} (h : recognise text = some r) :
    (∃ m, r = .plain m ∧ (text, m) ∈ plainMnemonics) ∨
      ((∃ n z p, r = .br n z p) ∧ ∃ flags, text = 'B' :: 'R' :: flags ∧ ∀ c ∈ flags, c = 'n' ∨ c = 'z' ∨ c = 'p') := by
  unfold recognise at h
  split at h
  · next m hlookup =>
    obtain ⟨front, rest, hlist, -⟩ := List.lookup_eq_some_iff.mp hlookup
    exact .inl ⟨m, (Option.some.inj h).symm, hlist ▸ List.mem_append_right _ List.mem_cons_self⟩
  · split at h
    · obtain ⟨f, hf, hr⟩ := Option.map_eq_some_iff.mp h
      exact .inr ⟨⟨_, _, _, hr.symm⟩, _, rfl, letters_of_brFlags hf⟩
    · cases h

/-- Settles O45: by the list's own lookup and by induction on the letters after BR. -/
theorem recognisedMnemonics : Obligations.RecognisedMnemonics := by
  refine ⟨recognise_names, fun _ => recognise_br, fun text m h => ?_, fun text n z p h => ?_⟩
  · rcases recognise_eq_some_cases h with ⟨_, hm, hmem⟩ | ⟨⟨_, _, _, hbr⟩, -⟩
    · cases hm; exact hmem
    · cases hbr
  · rcases recognise_eq_some_cases h with ⟨_, hm, -⟩ | ⟨-, hflags⟩
    · cases hm
    · exact hflags

/-! ## What a line does, by its first token -/

section Line

variable {line text : List Char} {operands : List Token} {m : MnemonicText} {f : Form} {st : AsmState}

theorem assembleLine_eq (hcomment : line.head? ≠ some ';') {tokens : List Token} (htokens : tokenize line = tokens) :
    assembleLine line st = assembleTokens line st tokens := by
  rw [assembleLine, if_neg hcomment, htokens]

theorem assembleTokens_of_unrecognised (h : recognise text = none) :
    assembleTokens line st (.command text :: operands) = .ok { st with diagnostics := st.diagnostics ++ [line] } := by
  simp [assembleTokens, h]

theorem assembleTokens_of_shape (h : recognise text = some m) (hf : formOf m operands = none) :
    assembleTokens line st (.command text :: operands) = .error (.malformedOperand line) := by
  simp [assembleTokens, h, hf]

theorem assembleTokens_of_range (h : recognise text = some m) (hf : formOf m operands = some f)
    (hrange : ¬FormInRange f) : ∃ e, assembleTokens line st (.command text :: operands) = .error (.encodingRange e) := by
  cases hencode : encodeForm f with
  | ok w => exact absurd ((encodeForm_gives_word_iff f).mp ⟨w, hencode⟩) hrange
  | error e => exact ⟨e, by simp [assembleTokens, h, hf, hencode]⟩

theorem assembleTokens_of_form (h : recognise text = some m) (hf : formOf m operands = some f) {w : Word}
    (hw : encodeForm f = .ok w) : assembleTokens line st (.command text :: operands) = st.emit w := by
  simp [assembleTokens, h, hf, hw]

/-- The cursor's advance is the pc's. -/
theorem toNat_add_one {w : Word} (h : w ≠ 0xFFFF#16) : (w + 1#16).toNat = w.toNat + 1 :=
  toNat_pc_succ (s := State.reset.setPc w) h

/-- The word a line emits stands at the cursor, decodes to the line's own operands, and is all that is written. -/
theorem emit_encoded {w : Word} (hw : encodeForm f = .ok w) (hcursor : st.cursor ≠ 0xFFFF#16) :
    ∃ st', st.emit w = .ok st' ∧ (decode (st'.image.read st.cursor)).form = .ok f ∧
      (∀ a, a ≠ st.cursor → st'.image.read a = st.image.read a) ∧ st'.cursor.toNat = st.cursor.toNat + 1 ∧
      st'.diagnostics = st.diagnostics := by
  refine ⟨_, if_neg hcursor, ?_, fun a ha => Memory.read_write_of_ne _ _ ha, toNat_add_one hcursor, rfl⟩
  rw [Memory.read_write_same, roundTripLaws.1 f w hw]

end Line

/-- Settles O46: a text outside the recognised set gets its diagnostic and nothing else. -/
theorem unrecognisedMnemonicIsSkipped : Obligations.UnrecognisedMnemonicIsSkipped := by
  intro line text operands st hcomment htokens hnames hbr
  have hnone : recognise text = none := by
    refine Option.eq_none_iff_forall_ne_some.mpr fun r hr => ?_
    rcases recognise_eq_some_cases hr with ⟨m, -, hmem⟩ | ⟨-, flags, htext, hletters⟩
    · exact hnames (List.mem_map_of_mem (f := Prod.fst) hmem)
    · obtain ⟨c, hc, hn, hz, hp⟩ := hbr flags htext
      rcases hletters c hc with h | h | h
      · exact hn h
      · exact hz h
      · exact hp h
  have hline := (assembleLine_eq (st := st) hcomment htokens).trans (assembleTokens_of_unrecognised hnone)
  exact ⟨_, hline, rfl, rfl, rfl, fun rest => by rw [assembleFrom, hline]⟩

/-- Settles O47: by the token's kind. -/
theorem firstTokenMustBeCommand : Obligations.FirstTokenMustBeCommand := by
  intro line first rest st hcomment htokens hcommand
  rw [assembleLine_eq hcomment htokens]
  cases first with
  | register i => rfl
  | immediate v => rfl
  | command text => exact absurd rfl (hcommand text)

/-! ## Operand shapes (R79) -/

/-- R79's table: a mnemonic, operand tokens of one of its shapes, and the encoder call with the operands in order. -/
inductive ShapeRow : MnemonicText → List Token → Form → Prop
  | addr (d a b : Int) : ShapeRow (.plain .add) [.register d, .register a, .register b] (.addr d a b)
  | addi (d a v : Int) : ShapeRow (.plain .add) [.register d, .register a, .immediate v] (.addi d a v)
  | andr (d a b : Int) : ShapeRow (.plain .and) [.register d, .register a, .register b] (.andr d a b)
  | andi (d a v : Int) : ShapeRow (.plain .and) [.register d, .register a, .immediate v] (.andi d a v)
  | not (d a : Int) : ShapeRow (.plain .not) [.register d, .register a] (.not d a)
  | ld (r v : Int) : ShapeRow (.plain .ld) [.register r, .immediate v] (.ld r v)
  | st (r v : Int) : ShapeRow (.plain .st) [.register r, .immediate v] (.st r v)
  | ldi (r v : Int) : ShapeRow (.plain .ldi) [.register r, .immediate v] (.ldi r v)
  | sti (r v : Int) : ShapeRow (.plain .sti) [.register r, .immediate v] (.sti r v)
  | lea (r v : Int) : ShapeRow (.plain .lea) [.register r, .immediate v] (.lea r v)
  | ldr (r b v : Int) : ShapeRow (.plain .ldr) [.register r, .register b, .immediate v] (.ldr r b v)
  | str (r b v : Int) : ShapeRow (.plain .str) [.register r, .register b, .immediate v] (.str r b v)
  | jmp (b : Int) : ShapeRow (.plain .jmp) [.register b] (.jmp b)
  | trap (v : Int) : ShapeRow (.plain .trap) [.immediate v] (.trap v)
  | br (n z p : Bool) (v : Int) : ShapeRow (.br n z p) [.immediate v] (.br n z p v)

theorem formOf_eq_some_iff {m : MnemonicText} {ts : List Token} {f : Form} :
    formOf m ts = some f ↔ ShapeRow m ts f := by
  refine ⟨fun h => ?_, fun h => by cases h <;> rfl⟩
  unfold formOf at h
  split at h
  case h_16 => cases h
  all_goals
    cases h
    constructor

/-- Settles O48: by the table of shapes; a well-shaped line does what its encoder call and the cursor allow. -/
theorem recognisedLineEmitsItsWord : Obligations.RecognisedLineEmitsItsWord := by
  refine ⟨fun ts f => ?table, fun line text operands m st hcomment htokens hrecognised =>
    ⟨fun hshape => ?shape, fun f hf => ⟨fun hrange => ?range, fun hrange hcursor => ?top, fun hrange hcursor => ?emit⟩⟩⟩
  case table =>
    simp only [formOf_eq_some_iff]
    refine ⟨?add, ?and, ?not, ?ld, ?st, ?ldi, ?sti, ?lea, ?ldr, ?str, ?jmp, ?trap, fun n z p => ?br⟩
    case add | and =>
      constructor
      · rintro (_ | _)
        · exact .inl ⟨_, _, _, rfl, rfl⟩
        · exact .inr ⟨_, _, _, rfl, rfl⟩
      · rintro (⟨_, _, _, rfl, rfl⟩ | ⟨_, _, _, rfl, rfl⟩) <;> constructor
    case ldr | str =>
      constructor
      · rintro ⟨⟩
        exact ⟨_, _, _, rfl, rfl⟩
      · rintro ⟨_, _, _, rfl, rfl⟩
        constructor
    case not | ld | st | ldi | sti | lea =>
      constructor
      · rintro ⟨⟩
        exact ⟨_, _, rfl, rfl⟩
      · rintro ⟨_, _, rfl, rfl⟩
        constructor
    case jmp | trap | br =>
      constructor
      · rintro ⟨⟩
        exact ⟨_, rfl, rfl⟩
      · rintro ⟨_, rfl, rfl⟩
        constructor
  all_goals rw [assembleLine_eq hcomment htokens]
  case shape => exact assembleTokens_of_shape hrecognised hshape
  case range => exact assembleTokens_of_range hrecognised hf hrange
  case top =>
    obtain ⟨w, hw⟩ := (encodeForm_gives_word_iff f).mpr hrange
    rw [assembleTokens_of_form hrecognised hf hw, AsmState.emit, if_pos hcursor, hcursor]
  case emit =>
    obtain ⟨w, hw⟩ := (encodeForm_gives_word_iff f).mpr hrange
    rw [assembleTokens_of_form hrecognised hf hw]
    exact emit_encoded hw hcursor

/-! ## Register tokens out of range (I6) -/

/-- A register token whose index the encoder refuses, or a command: what the free value makes of R8 or R-1 (log 16). -/
def BadToken (t : Token) : Prop := (∃ i, t = .register i ∧ ¬RegInRange i) ∨ ∃ text, t = .command text

/-- Every operand token of an encoder call in range is a register of the machine or an immediate. -/
theorem not_badToken_of_formInRange {m : MnemonicText} {ts : List Token} {f : Form} (h : ShapeRow m ts f)
    (hf : FormInRange f) : ∀ t ∈ ts, ¬BadToken t := by
  cases h
  all_goals
    simp only [FormInRange] at hf
    simp [BadToken, hf]

theorem badToken_of_large {digits : List Char} {n : Nat} (hdigits : parseDecimal digits = some n) (hn : 7 < n) :
    BadToken (classify ('R' :: digits)) := by
  change BadToken (registerToken digits)
  simp only [registerToken, hdigits]
  split
  · exact .inl ⟨n, rfl, by unfold RegInRange; omega⟩
  · exact .inr ⟨_, rfl⟩

theorem parseDecimal_minus (digits : List Char) : parseDecimal ('-' :: digits) = none := by
  have hminus : '-'.isDigit = false := by decide
  simp [parseDecimal, hminus]

theorem parseSigned_minus {digits : List Char} {n : Nat} (hdigits : parseDecimal digits = some n) :
    parseSigned ('-' :: digits) = some (-(n : Int)) := by
  simp [parseSigned, hdigits]

theorem badToken_of_negative {digits : List Char} {n : Nat} (hdigits : parseDecimal digits = some n) (hn : 0 < n) :
    BadToken (classify ('R' :: '-' :: digits)) := by
  change BadToken (registerToken ('-' :: digits))
  simp only [registerToken, parseDecimal_minus, parseSigned_minus hdigits]
  split
  · exact .inl ⟨_, rfl, by unfold RegInRange; omega⟩
  · exact .inr ⟨_, rfl⟩

/-- Settles O51: either reading of the token keeps the line from an encoder call in range. -/
theorem badRegisterTokenAborts : Obligations.BadRegisterTokenAborts := by
  intro line text digits n token operands m st hcomment htokens hrecognised hmem hdigits htoken
  have hbad : BadToken token := by
    rcases htoken with ⟨hn, rfl⟩ | ⟨hn, rfl⟩
    · exact badToken_of_large hdigits hn
    · exact badToken_of_negative hdigits hn
  rw [assembleLine_eq hcomment htokens]
  cases hf : formOf m operands with
  | none => exact .inl (assembleTokens_of_shape hrecognised hf)
  | some f =>
    refine .inr (assembleTokens_of_range hrecognised hf fun hrange => ?_)
    exact not_badToken_of_formInRange (formOf_eq_some_iff.mp hf) hrange token hmem hbad

/-! ## The cursor and the image (R83) -/

/-- What every line that assembles keeps, every list of lines keeps. -/
theorem assembleFrom_induction {P : AsmState → Prop}
    (hline : ∀ line st st', assembleLine line st = .ok st' → P st → P st') {lines : List (List Char)} {st st' : AsmState}
    (h : assembleFrom st lines = .ok st') (hst : P st) : P st' := by
  induction lines generalizing st with
  | nil => exact Except.ok.inj h ▸ hst
  | cons line rest ih =>
    unfold assembleFrom at h
    split at h
    · cases h
    · next u hu => exact ih h (hline line st u hu hst)

/-- The assembler has emitted nothing below the entry point and nothing from the cursor on. -/
def EmittedBelowCursor (st : AsmState) : Prop :=
  0x3000 ≤ st.cursor.toNat ∧
    ∀ a : Word, (a.toNat < 0x3000 ∨ st.cursor.toNat ≤ a.toNat) → st.image.read a = 0x0000#16

theorem emittedBelowCursor_start : EmittedBelowCursor AsmState.start :=
  ⟨by decide, fun a _ => resetLeavesSpecValues.2.2.2.2 a⟩

theorem emittedBelowCursor_of_assembleLine {line : List Char} {st st' : AsmState} (h : assembleLine line st = .ok st')
    (hst : EmittedBelowCursor st) : EmittedBelowCursor st' := by
  obtain rfl | rfl | ⟨w, hw⟩ := assembleLine_ok_cases h
  · exact hst
  · exact hst
  · obtain ⟨hcursor, rfl⟩ := AsmState.emit_eq_ok hw
    obtain ⟨hlow, hzero⟩ := hst
    have hnext := toNat_add_one hcursor
    refine ⟨by simp only [hnext]; omega, fun a ha => ?_⟩
    simp only [hnext] at ha
    have hne : a ≠ st.cursor := fun heq => by subst heq; omega
    exact (Memory.read_write_of_ne _ _ hne).trans (hzero a (by omega))

/-- Settles O49: each line keeps the image canonical and the unemitted slots at zero, by induction on the lines. -/
theorem assembledImageIsBounded : Obligations.AssembledImageIsBounded := fun _ _ h =>
  ⟨wf_image_of_assembleFrom h Memory.wf_nil,
    assembleFrom_induction (fun _ _ _ => emittedBelowCursor_of_assembleLine) h emittedBelowCursor_start⟩

/-! ## Separators (R77) -/

/-- Pieces do not depend on which separator stands where. -/
theorem splitPieces_map {isSep : Char → Bool} {g : Char → Char} (hsep : ∀ c, isSep c = true → isSep (g c) = true)
    (hother : ∀ c, isSep c = false → g c = c) (cur line : List Char) :
    splitPieces isSep cur (line.map g) = splitPieces isSep cur line := by
  induction line generalizing cur with
  | nil => rfl
  | cons c cs ih =>
    cases hc : isSep c
    · simp [splitPieces, hother c hc, hc, ih]
    · simp [splitPieces, hsep c hc, hc, ih]

/-- Settles O50: the replacement maps separators to separators and no other character. -/
theorem separatorsAreAlike : Obligations.SeparatorsAreAlike := by
  intro line
  have hpieces := splitPieces_map (isSep := isSeparator) (g := fun c => if c = ',' ∨ c = '\t' then ' ' else c)
    (fun c hc => ?_) (fun c hc => ?_) [] line
  · rw [tokenize, hpieces, tokenize]
  · split
    · rfl
    · exact hc
  · refine if_neg fun h => ?_
    rcases h with rfl | rfl <;> cases hc

end Sys2Proof.Machine
end

section
/-! SUPPORT. Proofs of the statements about the size of an image and a run's start from one (R36, R37, R127). -/

namespace Sys2Proof.Machine

variable {order : ByteOrder} {bytes : List Byte}

theorem readImage_of_size (h : bytes.length = 131072) :
    readImage order bytes = .ok (memoryOfWords 0 (wordsOfBytes order bytes)) := if_pos h

/-- Settles O53: by the reader's one check; a file that cannot be opened gives it no bytes. -/
theorem imageSizeIsChecked : Obligations.ImageSizeIsChecked :=
  ⟨fun _ _ => ⟨fun h => if_neg h, fun h => ⟨_, readImage_of_size h⟩⟩, fun _ _ => rfl⟩

/-! ## The words of a file -/

/-- The word of two consecutive file bytes (R36). -/
def wordOfBytes (order : ByteOrder) (b0 b1 : Byte) : Word :=
  match order with
  | .little => wordOfHalves b1 b0
  | .big => wordOfHalves b0 b1

theorem wordsOfBytes_cons_cons (b0 b1 : Byte) (rest : List Byte) :
    wordsOfBytes order (b0 :: b1 :: rest) = wordOfBytes order b0 b1 :: wordsOfBytes order rest := by
  cases order <;> rfl

theorem length_wordsOfBytes_le : 2 * (wordsOfBytes order bytes).length ≤ bytes.length := by
  fun_induction wordsOfBytes order bytes with
  | case1 b0 b1 rest ih => simp only [List.length_cons]; omega
  | case2 => simp

theorem getElem?_wordsOfBytes {k : Nat} {b0 b1 : Byte} (h0 : bytes[2 * k]? = some b0) (h1 : bytes[2 * k + 1]? = some b1) :
    (wordsOfBytes order bytes)[k]? = some (wordOfBytes order b0 b1) := by
  induction k generalizing bytes with
  | zero =>
    match bytes, h0, h1 with
    | c0 :: c1 :: rest, h0, h1 =>
      obtain rfl : c0 = b0 := Option.some.inj h0
      obtain rfl : c1 = b1 := Option.some.inj h1
      rw [wordsOfBytes_cons_cons]
      rfl
  | succ k ih =>
    match bytes, h0, h1 with
    | [], h0, _ => cases h0
    | [_], _, h1 => cases h1
    | _ :: _ :: rest, h0, h1 =>
      rw [wordsOfBytes_cons_cons]
      exact ih h0 h1

theorem toNat_wordOfHalves (hi lo : Byte) : (wordOfHalves hi lo).toNat = 256 * hi.toNat + lo.toNat := by
  have hhi := hi.isLt
  have hshift : (hi.setWidth 16 <<< 8).toNat = 256 * hi.toNat := by
    simp [Nat.shiftLeft_eq]
    omega
  have hlo : (lo.setWidth 16).toNat = lo.toNat := BitVec.toNat_setWidth_of_le (by decide)
  rw [wordOfHalves, toNat_or_of_dvd_of_lt 8 (by omega) (by omega), hshift, hlo]

/-! ## The memory of a file -/

theorem memoryOfWords_fits (h : bytes.length = 131072) :
    2 * (0 + (wordsOfBytes order bytes).length) ≤ Config.imageBytes := by
  have hle := length_wordsOfBytes_le (order := order) (bytes := bytes)
  unfold Config.imageBytes
  omega

/-- Word `k` of the memory that the words fill is their word `k`. -/
theorem read_memoryOfWords {ws : List Word} (hfits : 2 * (0 + ws.length) ≤ Config.imageBytes) {k : Nat} {w : Word}
    (hw : ws[k]? = some w) : (memoryOfWords 0 ws).read (BitVec.ofNat 16 k) = w := by
  obtain ⟨hk, rfl⟩ := List.getElem?_eq_some_iff.mp hw
  have hword : k % 2 ^ 16 = k := Nat.mod_eq_of_lt (by unfold Config.imageBytes at hfits; omega)
  obtain ⟨hlow, hhigh⟩ := readByte_memoryOfWords hfits k
  simp only [Nat.zero_add, hk, dite_true] at hlow hhigh
  rw [Memory.read, BitVec.toNat_ofNat, hword, hlow, hhigh, Memory.wordOfHalves_halves]

/-- Settles O54: the start state is reset with the memory of the file's words. -/
theorem execStartsFromImage : Obligations.ExecStartsFromImage := by
  intro order name bytes hsize
  have hfits := memoryOfWords_fits (order := order) hsize
  have hstart : execStart order name (some bytes) = .ok (State.resetWith (memoryOfWords 0 (wordsOfBytes order bytes))) := by
    simp only [execStart, readImage_of_size hsize]
  refine ⟨_, hstart, wfFrom_memoryOfWords hfits, rfl, rfl, rfl, rfl, fun k b0 b1 h0 h1 => ?_⟩
  have hread := read_memoryOfWords hfits (getElem?_wordsOfBytes h0 h1)
  change ((memoryOfWords 0 (wordsOfBytes order bytes)).read (BitVec.ofNat 16 k)).toNat = _
  rw [hread]
  cases order with
  | little => exact (toNat_wordOfHalves b1 b0).trans (Nat.add_comm _ _)
  | big => exact toNat_wordOfHalves b0 b1

end Sys2Proof.Machine
end
